-- ==== Sys2Proof/Word.lean ====
section
/-! DEFINITION. The word type of the core and the names of its narrower bit fields (00_scope.md R7, R8, R13).

Every register, HI, LO, the pc, an address and a memory word is a 32-bit word. `BitVec` arithmetic is modulo 2^32
(R8), `BitVec.toInt` is the spec's `signed(v)` and `BitVec.toNat` its `unsigned(v)`. -/

namespace Sys2Proof

/-- A 32-bit word, `u32` (R8). -/
abbrev Word := BitVec 32

/-- A halfword, the 16-bit unit of LH, LHU and SH (R115). -/
abbrev Half := BitVec 16

/-- The addressable unit (R6). -/
abbrev Byte := BitVec 8

/-- A general-register index, a 5-bit value 0..31 (R13, R17). -/
abbrev RegIdx := BitVec 5

/-- The 16-bit immediate field (R55). -/
abbrev Imm16 := BitVec 16

/-- The 26-bit jump field (R55). -/
abbrev Target26 := BitVec 26

end Sys2Proof
end

