-- ==== Sys2Proof/Syntax.lean ====
section
/-! DEFINITION. The 48 instructions of 00_scope.md R2, one constructor for each row of opcode_table.json.

The arguments of a constructor are ALL the fields of its format, from the most significant bit down, less the
selector fields that single the instruction out (30_encoding.md R54, R61): `rs rt rd shamt` for an R-type,
`rs rt imm` for an I-type (`rs imm` when `rt` is the selector), `target` for a J-type, and bits 25:6 for SYSCALL.
DESIGN CHOICE (log 8): fields an instruction ignores are kept, because a fault report records the whole fetched
word (60_exceptions.md R144), ignored bits included. A docstring names the fields its instruction ignores. -/

namespace Sys2Proof

inductive Instr where
  /-- ADD rd, rs, rt (R81); ignores `shamt`. -/
  | add (rs rt rd : RegIdx) (shamt : BitVec 5)
  /-- ADDI rt, rs, imm (R82). -/
  | addi (rs rt : RegIdx) (imm : Imm16)
  /-- ADDU rd, rs, rt (R83); ignores `shamt`. -/
  | addu (rs rt rd : RegIdx) (shamt : BitVec 5)
  /-- ADDIU rt, rs, imm (R84). -/
  | addiu (rs rt : RegIdx) (imm : Imm16)
  /-- SUB rd, rs, rt (R85); ignores `shamt`. -/
  | sub (rs rt rd : RegIdx) (shamt : BitVec 5)
  /-- SUBU rd, rs, rt (R86); ignores `shamt`. -/
  | subu (rs rt rd : RegIdx) (shamt : BitVec 5)
  /-- AND rd, rs, rt (R87); ignores `shamt`. -/
  | and (rs rt rd : RegIdx) (shamt : BitVec 5)
  /-- ANDI rt, rs, imm (R88). -/
  | andi (rs rt : RegIdx) (imm : Imm16)
  /-- OR rd, rs, rt (R89); ignores `shamt`. -/
  | or (rs rt rd : RegIdx) (shamt : BitVec 5)
  /-- ORI rt, rs, imm (R90). -/
  | ori (rs rt : RegIdx) (imm : Imm16)
  /-- XOR rd, rs, rt (R91); ignores `shamt`. -/
  | xor (rs rt rd : RegIdx) (shamt : BitVec 5)
  /-- XORI rt, rs, imm (R92). -/
  | xori (rs rt : RegIdx) (imm : Imm16)
  /-- NOR rd, rs, rt (R93); ignores `shamt`. -/
  | nor (rs rt rd : RegIdx) (shamt : BitVec 5)
  /-- SLL rd, rt, shamt (R95); ignores `rs`. -/
  | sll (rs rt rd : RegIdx) (shamt : BitVec 5)
  /-- SRL rd, rt, shamt (R96); ignores `rs`. -/
  | srl (rs rt rd : RegIdx) (shamt : BitVec 5)
  /-- SRA rd, rt, shamt (R97); ignores `rs`. -/
  | sra (rs rt rd : RegIdx) (shamt : BitVec 5)
  /-- SLT rd, rs, rt (R98); ignores `shamt`. -/
  | slt (rs rt rd : RegIdx) (shamt : BitVec 5)
  /-- SLTI rt, rs, imm (R99). -/
  | slti (rs rt : RegIdx) (imm : Imm16)
  /-- SLTU rd, rs, rt (R100); ignores `shamt`. -/
  | sltu (rs rt rd : RegIdx) (shamt : BitVec 5)
  /-- SLTIU rt, rs, imm (R101). -/
  | sltiu (rs rt : RegIdx) (imm : Imm16)
  /-- LUI rt, imm (R102); ignores `rs`. -/
  | lui (rs rt : RegIdx) (imm : Imm16)
  /-- MULT rs, rt (R106); ignores `rd` and `shamt`. -/
  | mult (rs rt rd : RegIdx) (shamt : BitVec 5)
  /-- MULTU rs, rt (R107); ignores `rd` and `shamt`. -/
  | multu (rs rt rd : RegIdx) (shamt : BitVec 5)
  /-- DIV rs, rt (R108); ignores `rd` and `shamt`. -/
  | div (rs rt rd : RegIdx) (shamt : BitVec 5)
  /-- DIVU rs, rt (R109); ignores `rd` and `shamt`. -/
  | divu (rs rt rd : RegIdx) (shamt : BitVec 5)
  /-- MFHI rd (R110); ignores `rs`, `rt` and `shamt`. -/
  | mfhi (rs rt rd : RegIdx) (shamt : BitVec 5)
  /-- MFLO rd (R111); ignores `rs`, `rt` and `shamt`. -/
  | mflo (rs rt rd : RegIdx) (shamt : BitVec 5)
  /-- MTHI rs (R112); ignores `rt`, `rd` and `shamt`. -/
  | mthi (rs rt rd : RegIdx) (shamt : BitVec 5)
  /-- MTLO rs (R113); ignores `rt`, `rd` and `shamt`. -/
  | mtlo (rs rt rd : RegIdx) (shamt : BitVec 5)
  /-- LB rt, imm(rs) (R116). -/
  | lb (rs rt : RegIdx) (imm : Imm16)
  /-- LH rt, imm(rs) (R117). -/
  | lh (rs rt : RegIdx) (imm : Imm16)
  /-- LW rt, imm(rs) (R118). -/
  | lw (rs rt : RegIdx) (imm : Imm16)
  /-- LBU rt, imm(rs) (R119). -/
  | lbu (rs rt : RegIdx) (imm : Imm16)
  /-- LHU rt, imm(rs) (R120). -/
  | lhu (rs rt : RegIdx) (imm : Imm16)
  /-- SB rt, imm(rs) (R121). -/
  | sb (rs rt : RegIdx) (imm : Imm16)
  /-- SH rt, imm(rs) (R122). -/
  | sh (rs rt : RegIdx) (imm : Imm16)
  /-- SW rt, imm(rs) (R123). -/
  | sw (rs rt : RegIdx) (imm : Imm16)
  /-- J target (R130). -/
  | j (target : Target26)
  /-- JAL target (R131). -/
  | jal (target : Target26)
  /-- JR rs (R132); ignores `rt`, `rd` and `shamt`. -/
  | jr (rs rt rd : RegIdx) (shamt : BitVec 5)
  /-- JALR rd, rs (R133); ignores `rt` and `shamt`. -/
  | jalr (rs rt rd : RegIdx) (shamt : BitVec 5)
  /-- BEQ rs, rt, label (R134). -/
  | beq (rs rt : RegIdx) (imm : Imm16)
  /-- BNE rs, rt, label (R135). -/
  | bne (rs rt : RegIdx) (imm : Imm16)
  /-- BLEZ rs, label (R136); ignores `rt`. -/
  | blez (rs rt : RegIdx) (imm : Imm16)
  /-- BGTZ rs, label (R137); ignores `rt`. -/
  | bgtz (rs rt : RegIdx) (imm : Imm16)
  /-- BLTZ rs, label (R138); `rt` is the selector 00000. -/
  | bltz (rs : RegIdx) (imm : Imm16)
  /-- BGEZ rs, label (R139); `rt` is the selector 00001. -/
  | bgez (rs : RegIdx) (imm : Imm16)
  /-- SYSCALL (R140); ignores bits 25:6. -/
  | syscall (ignored : BitVec 20)
deriving DecidableEq, Repr

end Sys2Proof
end

