-- ==== Sys2Proof/Decode.lean ====
section
/-! DEFINITION. Decoding a word, and its inverse, the encoder (30_encoding.md), with the byte order of a word
(20_memory.md R38) and the opcode table as data (40_cycle.md R74).

The opcode, funct and sub-opcode numbers are those of R58 to R60 (the spec's D1 and D8; log 11). -/

namespace Sys2Proof

/-! ## Byte order -/

/-- The word made of four bytes, `b0` at the lowest address: little-endian (R38). -/
def wordOfBytes (b0 b1 b2 b3 : Byte) : Word := b3 ++ b2 ++ b1 ++ b0

/-- The halfword made of two bytes, `b0` at the lower address (R42). -/
def halfOfBytes (b0 b1 : Byte) : Half := b1 ++ b0

/-- The bytes of a word from its lowest address up: `v[7:0], v[15:8], v[23:16], v[31:24]` (R40). -/
def bytesOfWord (v : Word) : List Byte :=
  [v.extractLsb' 0 8, v.extractLsb' 8 8, v.extractLsb' 16 8, v.extractLsb' 24 8]

/-! ## Fields -/

/-- The decoded fields of R55: all are always extracted, and they overlap. -/
structure Fields where
  opcode   : BitVec 6
  rs       : RegIdx
  rt       : RegIdx
  rd       : RegIdx
  shamt    : BitVec 5
  funct    : BitVec 6
  imm16    : Imm16
  target26 : Target26
deriving DecidableEq, Repr

/-- R55: the bit range of each field. -/
def fields (w : Word) : Fields where
  opcode   := w.extractLsb' 26 6
  rs       := w.extractLsb' 21 5
  rt       := w.extractLsb' 16 5
  rd       := w.extractLsb' 11 5
  shamt    := w.extractLsb' 6 5
  funct    := w.extractLsb' 0 6
  imm16    := w.extractLsb' 0 16
  target26 := w.extractLsb' 0 26

/-- Bits 25:6, the ones SYSCALL ignores (R61): `rs || rt || rd || shamt`. -/
def Fields.ignoredBits (f : Fields) : BitVec 20 := f.rs ++ f.rt ++ f.rd ++ f.shamt

/-! ## Decoding -/

/-- Why bytes are no instruction. The last three are the cases (a), (b) and (c) of R62. -/
inductive DecodeError where
  /-- Fewer than the four bytes of an instruction (R64). -/
  | truncated
  /-- R62(a): the opcode is in no row. -/
  | illegalOpcode (opcode : BitVec 6)
  /-- R62(b): opcode 0 with a funct in no row. -/
  | illegalFunct (funct : BitVec 6)
  /-- R62(c): opcode 1 with rt neither 0 nor 1. -/
  | illegalSubOpcode (rt : RegIdx)
deriving DecidableEq, Repr

/-- The R-type family, selected by funct (R59). -/
def decodeFunct (f : Fields) : Except DecodeError Instr :=
  match f.funct with
  | 0b000000#6 => .ok (.sll f.rs f.rt f.rd f.shamt)
  | 0b000010#6 => .ok (.srl f.rs f.rt f.rd f.shamt)
  | 0b000011#6 => .ok (.sra f.rs f.rt f.rd f.shamt)
  | 0b001000#6 => .ok (.jr f.rs f.rt f.rd f.shamt)
  | 0b001001#6 => .ok (.jalr f.rs f.rt f.rd f.shamt)
  | 0b001100#6 => .ok (.syscall f.ignoredBits)
  | 0b010000#6 => .ok (.mfhi f.rs f.rt f.rd f.shamt)
  | 0b010001#6 => .ok (.mthi f.rs f.rt f.rd f.shamt)
  | 0b010010#6 => .ok (.mflo f.rs f.rt f.rd f.shamt)
  | 0b010011#6 => .ok (.mtlo f.rs f.rt f.rd f.shamt)
  | 0b011000#6 => .ok (.mult f.rs f.rt f.rd f.shamt)
  | 0b011001#6 => .ok (.multu f.rs f.rt f.rd f.shamt)
  | 0b011010#6 => .ok (.div f.rs f.rt f.rd f.shamt)
  | 0b011011#6 => .ok (.divu f.rs f.rt f.rd f.shamt)
  | 0b100000#6 => .ok (.add f.rs f.rt f.rd f.shamt)
  | 0b100001#6 => .ok (.addu f.rs f.rt f.rd f.shamt)
  | 0b100010#6 => .ok (.sub f.rs f.rt f.rd f.shamt)
  | 0b100011#6 => .ok (.subu f.rs f.rt f.rd f.shamt)
  | 0b100100#6 => .ok (.and f.rs f.rt f.rd f.shamt)
  | 0b100101#6 => .ok (.or f.rs f.rt f.rd f.shamt)
  | 0b100110#6 => .ok (.xor f.rs f.rt f.rd f.shamt)
  | 0b100111#6 => .ok (.nor f.rs f.rt f.rd f.shamt)
  | 0b101010#6 => .ok (.slt f.rs f.rt f.rd f.shamt)
  | 0b101011#6 => .ok (.sltu f.rs f.rt f.rd f.shamt)
  | other => .error (.illegalFunct other)

/-- The REGIMM family, selected by rt (R60; the spec's D8). -/
def decodeSubOpcode (f : Fields) : Except DecodeError Instr :=
  match f.rt with
  | 0b00000#5 => .ok (.bltz f.rs f.imm16)
  | 0b00001#5 => .ok (.bgez f.rs f.imm16)
  | other => .error (.illegalSubOpcode other)

/-- The two-level dispatch of R57 and R74 over the opcodes of R58. -/
def decodeFields (f : Fields) : Except DecodeError Instr :=
  match f.opcode with
  | 0b000000#6 => decodeFunct f
  | 0b000001#6 => decodeSubOpcode f
  | 0b000010#6 => .ok (.j f.target26)
  | 0b000011#6 => .ok (.jal f.target26)
  | 0b000100#6 => .ok (.beq f.rs f.rt f.imm16)
  | 0b000101#6 => .ok (.bne f.rs f.rt f.imm16)
  | 0b000110#6 => .ok (.blez f.rs f.rt f.imm16)
  | 0b000111#6 => .ok (.bgtz f.rs f.rt f.imm16)
  | 0b001000#6 => .ok (.addi f.rs f.rt f.imm16)
  | 0b001001#6 => .ok (.addiu f.rs f.rt f.imm16)
  | 0b001010#6 => .ok (.slti f.rs f.rt f.imm16)
  | 0b001011#6 => .ok (.sltiu f.rs f.rt f.imm16)
  | 0b001100#6 => .ok (.andi f.rs f.rt f.imm16)
  | 0b001101#6 => .ok (.ori f.rs f.rt f.imm16)
  | 0b001110#6 => .ok (.xori f.rs f.rt f.imm16)
  | 0b001111#6 => .ok (.lui f.rs f.rt f.imm16)
  | 0b100000#6 => .ok (.lb f.rs f.rt f.imm16)
  | 0b100001#6 => .ok (.lh f.rs f.rt f.imm16)
  | 0b100011#6 => .ok (.lw f.rs f.rt f.imm16)
  | 0b100100#6 => .ok (.lbu f.rs f.rt f.imm16)
  | 0b100101#6 => .ok (.lhu f.rs f.rt f.imm16)
  | 0b101000#6 => .ok (.sb f.rs f.rt f.imm16)
  | 0b101001#6 => .ok (.sh f.rs f.rt f.imm16)
  | 0b101011#6 => .ok (.sw f.rs f.rt f.imm16)
  | other => .error (.illegalOpcode other)

/-- `decode(word)` (R55, R71): a pure function of the word. -/
def decodeWord (w : Word) : Except DecodeError Instr := decodeFields (fields w)

/-- Decoding from bytes in address order: one instruction and the bytes after it (R54, R64). -/
def decodeBytes : List Byte → Except DecodeError (Instr × List Byte)
  | b0 :: b1 :: b2 :: b3 :: rest =>
    match decodeWord (wordOfBytes b0 b1 b2 b3) with
    | .ok i => .ok (i, rest)
    | .error e => .error e
  | _ => .error .truncated

/-- The word whose low `nbits` bits are those of `w` and whose other bits are 0, as opcode_table.json numbers bits
(bit 0 is the least significant bit of the one word every instruction is). -/
def tableWord (nbits w : Nat) : Word := BitVec.ofNat 32 (w % 2 ^ nbits)

/-- The instruction the decoder reads from the table word `w`, laid out little-endian (R38). -/
def decodeTableWord (nbits w : Nat) : Option Instr :=
  match decodeBytes (bytesOfWord (tableWord nbits w)) with
  | .ok (i, _) => some i
  | .error _ => none

/-! ## Encoding -/

/-- The R-type format of R54; the opcode is 0. -/
def rWord (rs rt rd : RegIdx) (shamt : BitVec 5) (funct : BitVec 6) : Word :=
  0b000000#6 ++ rs ++ rt ++ rd ++ shamt ++ funct

/-- The I-type format of R54. -/
def iWord (opcode : BitVec 6) (rs rt : RegIdx) (imm : Imm16) : Word :=
  opcode ++ rs ++ rt ++ imm

/-- The J-type format of R54. -/
def jWord (opcode : BitVec 6) (target : Target26) : Word := opcode ++ target

/-- SYSCALL's word: opcode 0, bits 25:6 whatever they are, funct 0x0C (R59, R61). -/
def syscallWord (ignored : BitVec 20) : Word := 0b000000#6 ++ ignored ++ 0b001100#6

/-- The word of an instruction, from the formats of R54 and the numbers of R58 to R60. -/
def encode : Instr → Word
  | .add rs rt rd shamt => rWord rs rt rd shamt 0b100000#6
  | .addi rs rt imm => iWord 0b001000#6 rs rt imm
  | .addu rs rt rd shamt => rWord rs rt rd shamt 0b100001#6
  | .addiu rs rt imm => iWord 0b001001#6 rs rt imm
  | .sub rs rt rd shamt => rWord rs rt rd shamt 0b100010#6
  | .subu rs rt rd shamt => rWord rs rt rd shamt 0b100011#6
  | .and rs rt rd shamt => rWord rs rt rd shamt 0b100100#6
  | .andi rs rt imm => iWord 0b001100#6 rs rt imm
  | .or rs rt rd shamt => rWord rs rt rd shamt 0b100101#6
  | .ori rs rt imm => iWord 0b001101#6 rs rt imm
  | .xor rs rt rd shamt => rWord rs rt rd shamt 0b100110#6
  | .xori rs rt imm => iWord 0b001110#6 rs rt imm
  | .nor rs rt rd shamt => rWord rs rt rd shamt 0b100111#6
  | .sll rs rt rd shamt => rWord rs rt rd shamt 0b000000#6
  | .srl rs rt rd shamt => rWord rs rt rd shamt 0b000010#6
  | .sra rs rt rd shamt => rWord rs rt rd shamt 0b000011#6
  | .slt rs rt rd shamt => rWord rs rt rd shamt 0b101010#6
  | .slti rs rt imm => iWord 0b001010#6 rs rt imm
  | .sltu rs rt rd shamt => rWord rs rt rd shamt 0b101011#6
  | .sltiu rs rt imm => iWord 0b001011#6 rs rt imm
  | .lui rs rt imm => iWord 0b001111#6 rs rt imm
  | .mult rs rt rd shamt => rWord rs rt rd shamt 0b011000#6
  | .multu rs rt rd shamt => rWord rs rt rd shamt 0b011001#6
  | .div rs rt rd shamt => rWord rs rt rd shamt 0b011010#6
  | .divu rs rt rd shamt => rWord rs rt rd shamt 0b011011#6
  | .mfhi rs rt rd shamt => rWord rs rt rd shamt 0b010000#6
  | .mflo rs rt rd shamt => rWord rs rt rd shamt 0b010010#6
  | .mthi rs rt rd shamt => rWord rs rt rd shamt 0b010001#6
  | .mtlo rs rt rd shamt => rWord rs rt rd shamt 0b010011#6
  | .lb rs rt imm => iWord 0b100000#6 rs rt imm
  | .lh rs rt imm => iWord 0b100001#6 rs rt imm
  | .lw rs rt imm => iWord 0b100011#6 rs rt imm
  | .lbu rs rt imm => iWord 0b100100#6 rs rt imm
  | .lhu rs rt imm => iWord 0b100101#6 rs rt imm
  | .sb rs rt imm => iWord 0b101000#6 rs rt imm
  | .sh rs rt imm => iWord 0b101001#6 rs rt imm
  | .sw rs rt imm => iWord 0b101011#6 rs rt imm
  | .j target => jWord 0b000010#6 target
  | .jal target => jWord 0b000011#6 target
  | .jr rs rt rd shamt => rWord rs rt rd shamt 0b001000#6
  | .jalr rs rt rd shamt => rWord rs rt rd shamt 0b001001#6
  | .beq rs rt imm => iWord 0b000100#6 rs rt imm
  | .bne rs rt imm => iWord 0b000101#6 rs rt imm
  | .blez rs rt imm => iWord 0b000110#6 rs rt imm
  | .bgtz rs rt imm => iWord 0b000111#6 rs rt imm
  | .bltz rs imm => iWord 0b000001#6 rs 0b00000#5 imm
  | .bgez rs imm => iWord 0b000001#6 rs 0b00001#5 imm
  | .syscall ignored => syscallWord ignored

/-! ## The opcode table as data -/

/-- One row of opcode_table.json: a word is this instruction when the bits under `mask` are `pattern`. -/
structure OpcodeRow where
  mnemonic : String
  pattern  : Word
  mask     : Word
deriving DecidableEq, Repr

/-- The word has the row's selector bits. -/
def OpcodeRow.selects (r : OpcodeRow) (w : Word) : Prop := w &&& r.mask = r.pattern

/-- The rows of 41_alu.md. -/
def aluRows : List OpcodeRow :=
  [⟨"ADD", 0x00000020#32, 0xFC00003F#32⟩,
   ⟨"ADDI", 0x20000000#32, 0xFC000000#32⟩,
   ⟨"ADDU", 0x00000021#32, 0xFC00003F#32⟩,
   ⟨"ADDIU", 0x24000000#32, 0xFC000000#32⟩,
   ⟨"SUB", 0x00000022#32, 0xFC00003F#32⟩,
   ⟨"SUBU", 0x00000023#32, 0xFC00003F#32⟩,
   ⟨"AND", 0x00000024#32, 0xFC00003F#32⟩,
   ⟨"ANDI", 0x30000000#32, 0xFC000000#32⟩,
   ⟨"OR", 0x00000025#32, 0xFC00003F#32⟩,
   ⟨"ORI", 0x34000000#32, 0xFC000000#32⟩,
   ⟨"XOR", 0x00000026#32, 0xFC00003F#32⟩,
   ⟨"XORI", 0x38000000#32, 0xFC000000#32⟩,
   ⟨"NOR", 0x00000027#32, 0xFC00003F#32⟩,
   ⟨"SLL", 0x00000000#32, 0xFC00003F#32⟩,
   ⟨"SRL", 0x00000002#32, 0xFC00003F#32⟩,
   ⟨"SRA", 0x00000003#32, 0xFC00003F#32⟩,
   ⟨"SLT", 0x0000002A#32, 0xFC00003F#32⟩,
   ⟨"SLTI", 0x28000000#32, 0xFC000000#32⟩,
   ⟨"SLTU", 0x0000002B#32, 0xFC00003F#32⟩,
   ⟨"SLTIU", 0x2C000000#32, 0xFC000000#32⟩,
   ⟨"LUI", 0x3C000000#32, 0xFC000000#32⟩]

/-- The rows of 42_muldiv.md. -/
def mulDivRows : List OpcodeRow :=
  [⟨"MULT", 0x00000018#32, 0xFC00003F#32⟩,
   ⟨"MULTU", 0x00000019#32, 0xFC00003F#32⟩,
   ⟨"DIV", 0x0000001A#32, 0xFC00003F#32⟩,
   ⟨"DIVU", 0x0000001B#32, 0xFC00003F#32⟩,
   ⟨"MFHI", 0x00000010#32, 0xFC00003F#32⟩,
   ⟨"MFLO", 0x00000012#32, 0xFC00003F#32⟩,
   ⟨"MTHI", 0x00000011#32, 0xFC00003F#32⟩,
   ⟨"MTLO", 0x00000013#32, 0xFC00003F#32⟩]

/-- The rows of 43_loadstore.md. -/
def loadStoreRows : List OpcodeRow :=
  [⟨"LB", 0x80000000#32, 0xFC000000#32⟩,
   ⟨"LH", 0x84000000#32, 0xFC000000#32⟩,
   ⟨"LW", 0x8C000000#32, 0xFC000000#32⟩,
   ⟨"LBU", 0x90000000#32, 0xFC000000#32⟩,
   ⟨"LHU", 0x94000000#32, 0xFC000000#32⟩,
   ⟨"SB", 0xA0000000#32, 0xFC000000#32⟩,
   ⟨"SH", 0xA4000000#32, 0xFC000000#32⟩,
   ⟨"SW", 0xAC000000#32, 0xFC000000#32⟩]

/-- The rows of 44_control.md and 45_system.md. -/
def controlRows : List OpcodeRow :=
  [⟨"J", 0x08000000#32, 0xFC000000#32⟩,
   ⟨"JAL", 0x0C000000#32, 0xFC000000#32⟩,
   ⟨"JR", 0x00000008#32, 0xFC00003F#32⟩,
   ⟨"JALR", 0x00000009#32, 0xFC00003F#32⟩,
   ⟨"BEQ", 0x10000000#32, 0xFC000000#32⟩,
   ⟨"BNE", 0x14000000#32, 0xFC000000#32⟩,
   ⟨"BLEZ", 0x18000000#32, 0xFC000000#32⟩,
   ⟨"BGTZ", 0x1C000000#32, 0xFC000000#32⟩,
   ⟨"BLTZ", 0x04000000#32, 0xFC1F0000#32⟩,
   ⟨"BGEZ", 0x04010000#32, 0xFC1F0000#32⟩,
   ⟨"SYSCALL", 0x0000000C#32, 0xFC00003F#32⟩]

/-- opcode_table.json, row by row (R61: the mask covers exactly the selector fields). -/
def opcodeTable : List OpcodeRow := aluRows ++ mulDivRows ++ loadStoreRows ++ controlRows

/-- The name of the instruction in opcode_table.json (R2). -/
def Instr.mnemonic : Instr → String
  | .add _ _ _ _ => "ADD"
  | .addi _ _ _ => "ADDI"
  | .addu _ _ _ _ => "ADDU"
  | .addiu _ _ _ => "ADDIU"
  | .sub _ _ _ _ => "SUB"
  | .subu _ _ _ _ => "SUBU"
  | .and _ _ _ _ => "AND"
  | .andi _ _ _ => "ANDI"
  | .or _ _ _ _ => "OR"
  | .ori _ _ _ => "ORI"
  | .xor _ _ _ _ => "XOR"
  | .xori _ _ _ => "XORI"
  | .nor _ _ _ _ => "NOR"
  | .sll _ _ _ _ => "SLL"
  | .srl _ _ _ _ => "SRL"
  | .sra _ _ _ _ => "SRA"
  | .slt _ _ _ _ => "SLT"
  | .slti _ _ _ => "SLTI"
  | .sltu _ _ _ _ => "SLTU"
  | .sltiu _ _ _ => "SLTIU"
  | .lui _ _ _ => "LUI"
  | .mult _ _ _ _ => "MULT"
  | .multu _ _ _ _ => "MULTU"
  | .div _ _ _ _ => "DIV"
  | .divu _ _ _ _ => "DIVU"
  | .mfhi _ _ _ _ => "MFHI"
  | .mflo _ _ _ _ => "MFLO"
  | .mthi _ _ _ _ => "MTHI"
  | .mtlo _ _ _ _ => "MTLO"
  | .lb _ _ _ => "LB"
  | .lh _ _ _ => "LH"
  | .lw _ _ _ => "LW"
  | .lbu _ _ _ => "LBU"
  | .lhu _ _ _ => "LHU"
  | .sb _ _ _ => "SB"
  | .sh _ _ _ => "SH"
  | .sw _ _ _ => "SW"
  | .j _ => "J"
  | .jal _ => "JAL"
  | .jr _ _ _ _ => "JR"
  | .jalr _ _ _ _ => "JALR"
  | .beq _ _ _ => "BEQ"
  | .bne _ _ _ => "BNE"
  | .blez _ _ _ => "BLEZ"
  | .bgtz _ _ _ => "BGTZ"
  | .bltz _ _ => "BLTZ"
  | .bgez _ _ => "BGEZ"
  | .syscall _ => "SYSCALL"

end Sys2Proof
end

