-- ==== Sys2Proof/Config.lean ====
section
/-! DEFINITION. What is fixed for one configured core: the text base, and the defaults of the two open parameters
`REGIONS` and `PROGRAM` (00_scope.md R6, 20_memory.md R35 and R36, 70_reset_and_hazards.md R158).

The spec states a result for every operand of every instruction, so there is no free value here. -/

namespace Sys2Proof

/-- One entry of the region table: the addresses `base` to `limit`, both included (R32). The region's bytes are
held in the machine's one memory list, since no two regions share an address. -/
structure Region where
  base  : Word
  limit : Word
deriving DecidableEq, Repr

namespace Config

/-- `TEXT_BASE`, the reset pc and the address programs are loaded at (R35; the spec's D9; log 10). -/
def textBase : Word := 0x00400000#32

/-- The default region table of R36. DESIGN CHOICE (log 1): `REGIONS` is an open parameter (D10), so the table is a
field of the state that no instruction writes, and this is its value in `State.reset` only. -/
def defaultRegions : List Region :=
  [⟨0x00400000#32, 0x004FFFFF#32⟩, ⟨0x10010000#32, 0x1010FFFF#32⟩]

/-- The default of the parameter `PROGRAM` (R158, U11). DESIGN CHOICE (log 2): no program; one is placed from
outside. -/
def defaultProgram : List Word := []

end Config
end Sys2Proof
end

