-- ==== Sys2Proof/Machine/State.lean ====
section
/-! DEFINITION. The state of the core as plain data (10_state.md R15, R16, R26, R31), the fault reports of
60_exceptions.md R144, the two stop types of the host's interface, and the state after reset (R158). -/

namespace Sys2Proof.Machine

/-! ## Fault reports -/

/-- The five execution-time faults (R143). They are reported, never taken (R145). -/
inductive FaultCode where
  | illegalInstruction
  | arithmeticOverflow
  | divideByZero
  | outOfBoundsMemoryAccess
  | unalignedAccess
deriving DecidableEq, Repr

/-- The access kind an access fault records (R144). -/
inductive AccessKind where
  | fetch
  | load
  | store
deriving DecidableEq, Repr

/-- The access widths: 1, 2 and 4 bytes (R45). -/
inductive Width where
  | byte
  | half
  | word
deriving DecidableEq, Repr

/-- What an access fault records of the access: `addr`, access kind and width (R144). -/
structure Access where
  addr  : Word
  kind  : AccessKind
  width : Width
deriving DecidableEq, Repr

/-- A fault record `{code, pc, word, addr}` (R145) with the access kind and width R144 adds. A field that R144 does
not list for the fault is absent. DESIGN CHOICE (log 7): a report to the host of a host operation has neither pc nor
word. -/
structure FaultReport where
  code   : FaultCode
  pc     : Option Word
  word   : Option Word
  access : Option Access
deriving DecidableEq, Repr

/-! ## The two ways a host step can stop -/

/-- There is no fault that stops this machine: every fault of the spec is a report of a cycle that commits (R145,
R149), so the type of stopping faults has no constructor (log 9). -/
inductive Fault where
deriving DecidableEq, Repr

/-- Why the model declines to answer. -/
inductive Refusal where
  /-- An instruction without a meaning. Every instruction has one, so no arm of exec raises it. Safe. -/
  | notModelled (mnemonic : String)
  /-- The region table breaks one of R33(a) to (d): "A model refuses a configuration that breaks (a)–(d)". Raised by
  a step, whatever the instruction. Safe: no configured core has such a table. -/
  | inadmissibleRegions
  /-- The host names a register outside 0..31, which is "refused by the model (no state change)" (R166, the spec's
  D18). Raised by the host's register access only, never by a step. Safe. -/
  | registerIndexOutOfRange (index : Nat)
deriving DecidableEq, Repr

/-! ## State -/

/-- Memory: the bytes that are not 0, as (address, byte) cells with strictly rising addresses. An unlisted address
reads as 0, since initialization and reset zero-fill every region (R52, R158; log 6). Which addresses exist is the
region table's business. -/
abbrev Memory := List Host.Cell

/-- The state of the core between cycles. -/
structure State where
  /-- The address of the next instruction (R20). -/
  pc               : Word
  /-- The storage of the general registers (R17). Register 0 is read and written through `State.reg` and
  `State.setReg`, which make it the hard-wired zero (R18, R75). -/
  regs             : Vector Word 32
  /-- HI (R22). -/
  hi               : Word
  /-- LO (R22). -/
  lo               : Word
  /-- The bytes of all regions (R32). -/
  mem              : Memory
  /-- The run flag that gates the cycle loop (R27). -/
  running          : Bool
  /-- The count of committed cycles modulo 2^32 (R28). -/
  instructionCount : Word
  /-- The number of words of the last `load_program` (R29). -/
  programWordCount : Word
  /-- The region table `REGIONS`, which nothing writes (R16, R32). -/
  regions          : List Region
  /-- The parameter `PROGRAM` that `reset()` loads again (R158), which nothing writes. -/
  program          : List Word
  /-- The output of the last cycle that ran: its fault report or none (R31, R145). The model's own field (log 3). -/
  report           : Option FaultReport
deriving DecidableEq, Repr

/-- The state right after reset (R158, R159, the table of R16) with the default parameters: the region table of R36
(log 1) and no program (log 2). The loaded program is empty, so no byte of memory is listed and its word count is
0. -/
def State.reset : State where
  pc               := Config.textBase
  regs             := Vector.replicate 32 0#32
  hi               := 0#32
  lo               := 0#32
  mem              := []
  running          := true
  instructionCount := 0#32
  programWordCount := 0#32
  regions          := Config.defaultRegions
  program          := Config.defaultProgram
  report           := none

end Sys2Proof.Machine
end

