-- ==== Sys2Proof/WellFormed.lean ====
section
/-! DEFINITION. What is well formed: an instruction (30_encoding.md R61, R63) and a region table (20_memory.md R33).

A term of `Instr` holds each field in a type of exactly the field's width, and the hardware checks no field beyond
the selectors (R61), so there is no ill-formed instruction. The ill-formed thing of this hardware is a region table
that breaks one of R33's four conditions; each has a check of its own here. -/

namespace Sys2Proof

/-- Every instruction term is well formed: R61 lets an unused field hold any value, and R63 leaves no reserved or
hint encoding among the 48. -/
def Instr.wellFormed (_ : Instr) : Bool := true

/-- The region holds the byte address `a`: `base <= a <= limit`, unsigned (R34). -/
def Region.contains (r : Region) (a : Word) : Bool :=
  decide (r.base.toNat ≤ a.toNat) && decide (a.toNat ≤ r.limit.toNat)

/-- R33(a): `base <= limit`. -/
def Region.ordered (r : Region) : Bool := decide (r.base.toNat ≤ r.limit.toNat)

/-- R33(c): `base mod 4 = 0` and `(limit + 1) mod 4 = 0` (the spec's D11). -/
def Region.wordAligned (r : Region) : Bool :=
  decide (r.base.toNat % 4 = 0) && decide ((r.limit.toNat + 1) % 4 = 0)

/-- The two regions share no address. -/
def Region.disjoint (r q : Region) : Bool :=
  decide (r.limit.toNat < q.base.toNat) || decide (q.limit.toNat < r.base.toNat)

/-- R33(b): no two regions of the table share an address. -/
def regionsDisjoint : List Region → Bool
  | [] => true
  | r :: rs => rs.all (fun q => r.disjoint q) && regionsDisjoint rs

/-- R33(d): exactly one region, the text region, contains `TEXT_BASE`. -/
def oneTextRegion (rs : List Region) : Bool :=
  (rs.filter (fun r => r.contains Config.textBase)).length == 1

/-- R33: the conditions (a) to (d) on a region table. -/
def regionsAdmissible (rs : List Region) : Bool :=
  rs.all Region.ordered && regionsDisjoint rs && rs.all Region.wordAligned && oneTextRegion rs

end Sys2Proof
end

