-- ==== Sys2Proof/Machine/Ops.lean ====
section
/-! DEFINITION. The named operations over the state: field updates, registers, memory, the address decoder, the
cycle's template and commit, and the ONE operation every fault goes through. -/

namespace Sys2Proof.Machine

/-- How an instruction ends: on this hardware always in a next state (R145). -/
abbrev Result := Host.Outcome State Fault Refusal

/-! ## Field updates -/

namespace State

def setPc (s : State) (v : Word) : State := { s with pc := v }
def setRegs (s : State) (v : Vector Word 32) : State := { s with regs := v }
def setHi (s : State) (v : Word) : State := { s with hi := v }
def setLo (s : State) (v : Word) : State := { s with lo := v }
def setMem (s : State) (v : Memory) : State := { s with mem := v }
def setRunning (s : State) (v : Bool) : State := { s with running := v }
def setInstructionCount (s : State) (v : Word) : State := { s with instructionCount := v }
def setProgramWordCount (s : State) (v : Word) : State := { s with programWordCount := v }
def setReport (s : State) (v : Option FaultReport) : State := { s with report := v }

/-! ## General registers -/

/-- `x[i]`: register `i`, and 0 when `i = 0` (R10, R18). -/
def reg (s : State) (i : RegIdx) : Word :=
  if i = 0#5 then 0#32 else s.regs[i.toNat]'i.isLt

/-- `x[i] <- v`: discarded when `i = 0` (R10, R18, R75). -/
def setReg (s : State) (i : RegIdx) (v : Word) : State :=
  if i = 0#5 then s else s.setRegs (s.regs.set i.toNat v i.isLt)

end State

/-! ## The bytes of memory -/

namespace Memory

/-- The byte at an address; an unlisted one reads as 0 (R52). -/
def read : Memory → Nat → Byte
  | [], _ => 0#8
  | (k, v) :: m, a => if k = a then v else read m a

/-- Put one byte at an address. The cell list stays strictly rising and holds no 0. -/
def write : Memory → Nat → Byte → Memory
  | [], a, b => if b = 0#8 then [] else [(a, b)]
  | (k, v) :: m, a, b =>
    if a < k then (if b = 0#8 then (k, v) :: m else (a, b) :: (k, v) :: m)
    else if a = k then (if b = 0#8 then m else (a, b) :: m)
    else (k, v) :: write m a b

/-- Put bytes at rising addresses from `a` up. -/
def writeBytes (m : Memory) (a : Nat) : List Byte → Memory
  | [] => m
  | b :: bs => writeBytes (m.write a b) (a + 1) bs

/-- The two bytes at `a` and `a + 1`, little-endian (R42). -/
def readHalf (m : Memory) (a : Nat) : Half := halfOfBytes (m.read a) (m.read (a + 1))

/-- The four bytes from `a` up, little-endian (R38, R39). -/
def readWord (m : Memory) (a : Nat) : Word :=
  wordOfBytes (m.read a) (m.read (a + 1)) (m.read (a + 2)) (m.read (a + 3))

/-- The canonical form: addresses strictly rising, and no cell equal to what an unlisted address reads as. -/
abbrev wf (m : Memory) : Prop :=
  m.Pairwise (fun c d => c.1 < d.1) ∧ ∀ c ∈ m, c.2 ≠ 0#8

end Memory

/-! ## The address decoder and the access widths -/

/-- `lookup(a)`: the first region of the table that contains `a` (R34). -/
def lookup (rs : List Region) (a : Word) : Option Region := rs.find? (fun r => r.contains a)

/-- Some region contains the address. -/
def inBounds (s : State) (a : Word) : Bool := (lookup s.regions a).isSome

/-- The bytes an access moves: 1, 2 or 4 (R45). -/
def Width.bytes : Width → Nat
  | .byte => 1
  | .half => 2
  | .word => 4

/-- `a mod n = 0` for the access's width `n`, which is no requirement for bytes (R41). -/
def aligned (a : Word) (w : Width) : Bool := decide (a.toNat % w.bytes = 0)

/-! ## Memory accesses (R42, R44) -/

/-- The value `MemRead(a, n)` returns, in the low bits of a word: 0 when no region contains `a` (R39, R42). -/
def memRead (s : State) (a : Word) (w : Width) : Word :=
  if inBounds s a then
    match w with
    | .byte => (s.mem.read a.toNat).setWidth 32
    | .half => (s.mem.readHalf a.toNat).setWidth 32
    | .word => s.mem.readWord a.toNat
  else 0#32

/-- `MemWrite(a, n, v)`: the low `n` bytes of `v` from `a` up; nothing when no region contains `a` (R40, R44). -/
def memWrite (s : State) (a : Word) (w : Width) (v : Word) : State :=
  if inBounds s a then s.setMem (s.mem.writeBytes a.toNat ((bytesOfWord v).take w.bytes)) else s

/-! ## Fault reports (R144) -/

/-- The numbers of R144; no instruction can read them (the spec's D19). -/
def FaultCode.number : FaultCode → Nat
  | .illegalInstruction => 1
  | .arithmeticOverflow => 2
  | .divideByZero => 3
  | .outOfBoundsMemoryAccess => 4
  | .unalignedAccess => 5

/-- The record of a fault that names an instruction and no access: `pc` and `word` (R144). -/
def instructionReport (code : FaultCode) (pc word : Word) : FaultReport :=
  ⟨code, some pc, some word, none⟩

/-- The record of a load's or a store's access fault: `pc`, `word`, `addr`, kind and width (R144). -/
def dataReport (code : FaultCode) (pc word addr : Word) (kind : AccessKind) (width : Width) : FaultReport :=
  ⟨code, some pc, some word, some ⟨addr, kind, width⟩⟩

/-- The record of a fetch's access fault: no word was fetched, and `addr` is the pc (R144). -/
def fetchReport (code : FaultCode) (pc : Word) : FaultReport :=
  ⟨code, some pc, none, some ⟨pc, .fetch, .word⟩⟩

/-- The report to the host of a host operation's access: no cycle runs, so there is no pc and no word (R51, R53;
log 7). -/
def hostReport (code : FaultCode) (addr : Word) (kind : AccessKind) : FaultReport :=
  ⟨code, none, none, some ⟨addr, kind, .word⟩⟩

/-- The out-of-bounds report of an access at `a`, if it is due (R39, R40, R42, R44). -/
def outOfBoundsReport (s : State) (a : Word) (r : FaultReport) : Option FaultReport :=
  if inBounds s a then none else some r

/-- `raise F(info)` and `report F(info)`: the fault becomes the cycle's report (R12, R145). This is all that taking
a fault does on this hardware: no state is saved, no mode changes and control goes nowhere (R149), so there is no
return from one either (R150). -/
def reportFault (next : State) (r : FaultReport) : State := next.setReport (some r)

/-! ## The cycle's template and commit -/

/-- The next snapshot EXECUTE starts from: the current one with the pc advanced by 4 (R72, R21), and no fault
recorded yet in this cycle (R31). -/
def template (s : State) : State := (s.setPc (s.pc + 4#32)).setReport none

/-- COMMIT: the next snapshot becomes current and the counter counts the cycle (R76, R28). -/
def commit (next : State) : State := next.setInstructionCount (next.instructionCount + 1#32)

end Sys2Proof.Machine
end

