-- ==== Sys2Proof/Machine/Flags.lean ====
section
/-! DEFINITION. The conditions instructions compute. The hardware has no flags and no condition codes (10_state.md
R23): a comparison writes 0 or 1 to a register or decides a branch, and signed overflow is a report of its cycle. -/

namespace Sys2Proof.Machine

/-- `ovf(a, b)`: the exact signed sum lies outside the 32-bit signed range (R80). -/
def addOverflows (a b : Word) : Bool :=
  decide (a.toInt + b.toInt < -(2 ^ 31)) || decide (a.toInt + b.toInt > 2 ^ 31 - 1)

/-- `a <s b` (R8). -/
def lessSigned (a b : Word) : Bool := decide (a.toInt < b.toInt)

/-- `a <u b` (R8). -/
def lessUnsigned (a b : Word) : Bool := decide (a.toNat < b.toNat)

/-- The result of a comparison: 1 when it holds, 0 otherwise (R98 to R101). -/
def zeroOrOne (c : Bool) : Word := if c then 1#32 else 0#32

/-- BEQ's condition (R134). -/
def equalWords (a b : Word) : Bool := decide (a = b)

/-- BLEZ's condition, `signed(a) <= 0` (R136). -/
def atMostZero (a : Word) : Bool := decide (a.toInt ≤ 0)

/-- BGTZ's condition, `signed(a) > 0` (R137). -/
def aboveZero (a : Word) : Bool := decide (a.toInt > 0)

/-- BLTZ's condition, `signed(a) < 0` (R138). -/
def belowZero (a : Word) : Bool := decide (a.toInt < 0)

/-- BGEZ's condition, `signed(a) >= 0` (R139). -/
def atLeastZero (a : Word) : Bool := decide (a.toInt ≥ 0)

end Sys2Proof.Machine
end

