-- ==== Sys2Proof/Machine/Operands.lean ====
section
/-! DEFINITION. Every operand form of 30_encoding.md R56, with the extensions of R9 and the label arithmetic of
R65. -/

namespace Sys2Proof.Machine

/-- The signed immediate, `sext_32(imm16)` (R9, R56). -/
def signedImmediate (imm : Imm16) : Word := imm.signExtend 32

/-- The logical immediate, `zext_32(imm16)` (R9, R56). -/
def logicalImmediate (imm : Imm16) : Word := imm.setWidth 32

/-- The upper immediate, `imm16 || 0x0000` (R56, R102). -/
def upperImmediate (imm : Imm16) : Word := imm ++ 0x0000#16

/-- `EA = x[rs] + sext_32(imm16)` modulo 2^32 (R114). -/
def effectiveAddress (base : Word) (imm : Imm16) : Word := base + signedImmediate imm

/-- `pc + 4 + (sext_32(imm16) << 2)` modulo 2^32 (R126). -/
def branchTarget (pc : Word) (imm : Imm16) : Word := pc + 4#32 + (signedImmediate imm <<< 2)

/-- `(pc + 4)[31:28] || target26 || 00` (R127). -/
def jumpTarget (pc : Word) (target : Target26) : Word :=
  (pc + 4#32).extractLsb' 28 4 ++ target ++ 0b00#2

/-- The link value `pc + 8` (R125). -/
def linkAddress (pc : Word) : Word := pc + 8#32

/-- The register JAL links in (R17, R129). -/
def linkRegister : RegIdx := 31#5

/-- `sext_32` of the byte in a word's low bits (R9, R116). -/
def signExtendByte (v : Word) : Word := (v.extractLsb' 0 8).signExtend 32

/-- `zext_32` of the byte in a word's low bits (R9, R119). -/
def zeroExtendByte (v : Word) : Word := (v.extractLsb' 0 8).setWidth 32

/-- `sext_32` of the halfword in a word's low bits (R9, R117). -/
def signExtendHalf (v : Word) : Word := (v.extractLsb' 0 16).signExtend 32

/-- `zext_32` of the halfword in a word's low bits (R9, R120). -/
def zeroExtendHalf (v : Word) : Word := (v.extractLsb' 0 16).setWidth 32

/-- The offset field of a branch at `pc` to the byte address `label`, defined only when `label - (pc + 4)` is a
multiple of 4 in the range -131072..131068 (R65). -/
def branchField (pc label : Word) : Option Imm16 :=
  let d := (label - (pc + 4#32)).toInt
  if d % 4 = 0 ∧ -131072 ≤ d ∧ d ≤ 131068 then
    some (((label - (pc + 4#32)) >>> 2).extractLsb' 0 16)
  else none

/-- The field of J and JAL for a byte address: `target[27:2]` (R65). -/
def jumpField (target : Word) : Target26 := target.extractLsb' 2 26

end Sys2Proof.Machine
end

