-- ==== Sys2Proof/Machine/Alu.lean ====
section
/-! DEFINITION. The ALU instructions of 41_alu.md. Each starts from the cycle's template (pc + 4) and reads only the
current snapshot (R72, R73). -/

namespace Sys2Proof.Machine

/-- The template and one register write: the whole of a non-trapping ALU instruction (R79). -/
def writeResult (d : RegIdx) (v : Word) (s : State) : Result := .next ((template s).setReg d v)

/-- The trapping addition of ADD and ADDI: on signed overflow the fault is reported and the destination is not
written (R80). -/
def trappingAdd (word : Word) (d : RegIdx) (a b : Word) (s : State) : Result :=
  if addOverflows a b then
    .next (reportFault (template s) (instructionReport .arithmeticOverflow s.pc word))
  else writeResult d (a + b) s

/-- ADD (R81). -/
def execAdd (rs rt rd : RegIdx) (shamt : BitVec 5) (s : State) : Result :=
  trappingAdd (encode (.add rs rt rd shamt)) rd (s.reg rs) (s.reg rt) s

/-- ADDI (R82). -/
def execAddi (rs rt : RegIdx) (imm : Imm16) (s : State) : Result :=
  trappingAdd (encode (.addi rs rt imm)) rt (s.reg rs) (signedImmediate imm) s

/-- ADDU (R83). -/
def execAddu (rs rt rd : RegIdx) (s : State) : Result := writeResult rd (s.reg rs + s.reg rt) s

/-- ADDIU (R84): the immediate is sign-extended (the spec's D5). -/
def execAddiu (rs rt : RegIdx) (imm : Imm16) (s : State) : Result :=
  writeResult rt (s.reg rs + signedImmediate imm) s

/-- SUB (R85): no overflow fault (90_conflicts.md C1). -/
def execSub (rs rt rd : RegIdx) (s : State) : Result := writeResult rd (s.reg rs - s.reg rt) s

/-- SUBU (R86). -/
def execSubu (rs rt rd : RegIdx) (s : State) : Result := writeResult rd (s.reg rs - s.reg rt) s

/-- AND (R87). -/
def execAnd (rs rt rd : RegIdx) (s : State) : Result := writeResult rd (s.reg rs &&& s.reg rt) s

/-- ANDI (R88). -/
def execAndi (rs rt : RegIdx) (imm : Imm16) (s : State) : Result :=
  writeResult rt (s.reg rs &&& logicalImmediate imm) s

/-- OR (R89): bitwise, as R5 and R89 say. -/
def execOr (rs rt rd : RegIdx) (s : State) : Result := writeResult rd (s.reg rs ||| s.reg rt) s

/-- ORI (R90). -/
def execOri (rs rt : RegIdx) (imm : Imm16) (s : State) : Result :=
  writeResult rt (s.reg rs ||| logicalImmediate imm) s

/-- XOR (R91). -/
def execXor (rs rt rd : RegIdx) (s : State) : Result := writeResult rd (s.reg rs ^^^ s.reg rt) s

/-- XORI (R92). -/
def execXori (rs rt : RegIdx) (imm : Imm16) (s : State) : Result :=
  writeResult rt (s.reg rs ^^^ logicalImmediate imm) s

/-- NOR (R93). -/
def execNor (rs rt rd : RegIdx) (s : State) : Result := writeResult rd (~~~(s.reg rs ||| s.reg rt)) s

/-- SLL (R95). -/
def execSll (rt rd : RegIdx) (shamt : BitVec 5) (s : State) : Result :=
  writeResult rd (s.reg rt <<< shamt.toNat) s

/-- SRL (R96). -/
def execSrl (rt rd : RegIdx) (shamt : BitVec 5) (s : State) : Result :=
  writeResult rd (s.reg rt >>> shamt.toNat) s

/-- SRA (R97). -/
def execSra (rt rd : RegIdx) (shamt : BitVec 5) (s : State) : Result :=
  writeResult rd ((s.reg rt).sshiftRight shamt.toNat) s

/-- SLT (R98). -/
def execSlt (rs rt rd : RegIdx) (s : State) : Result :=
  writeResult rd (zeroOrOne (lessSigned (s.reg rs) (s.reg rt))) s

/-- SLTI (R99): the immediate is sign-extended (the spec's D5). -/
def execSlti (rs rt : RegIdx) (imm : Imm16) (s : State) : Result :=
  writeResult rt (zeroOrOne (lessSigned (s.reg rs) (signedImmediate imm))) s

/-- SLTU (R100). -/
def execSltu (rs rt rd : RegIdx) (s : State) : Result :=
  writeResult rd (zeroOrOne (lessUnsigned (s.reg rs) (s.reg rt))) s

/-- SLTIU (R101): the immediate is sign-extended, the comparison unsigned (the spec's D5). -/
def execSltiu (rs rt : RegIdx) (imm : Imm16) (s : State) : Result :=
  writeResult rt (zeroOrOne (lessUnsigned (s.reg rs) (signedImmediate imm))) s

/-- LUI (R102). -/
def execLui (rt : RegIdx) (imm : Imm16) (s : State) : Result := writeResult rt (upperImmediate imm) s

end Sys2Proof.Machine
end

