-- ==== Sys2Proof/Machine/Control.lean ====
section
/-! DEFINITION. Jumps and branches (44_control.md). A taken transfer overwrites the template's pc; there is no delay
slot (R124). -/

namespace Sys2Proof.Machine

/-- The template with the pc overwritten (R21, R124). -/
def jumpTo (target : Word) (s : State) : Result := .next ((template s).setPc target)

/-- A jump that links: register `d` gets `pc + 8` and the pc the target, both from the current snapshot (R125,
R73). -/
def jumpAndLink (d : RegIdx) (target : Word) (s : State) : Result :=
  .next (((template s).setReg d (linkAddress s.pc)).setPc target)

/-- A conditional branch: the target when the condition holds, else the template's `pc + 4` (R126). -/
def branchIf (c : Bool) (imm : Imm16) (s : State) : Result :=
  if c then jumpTo (branchTarget s.pc imm) s else .next (template s)

/-- J (R130). -/
def execJ (target : Target26) (s : State) : Result := jumpTo (jumpTarget s.pc target) s

/-- JAL (R131). -/
def execJal (target : Target26) (s : State) : Result :=
  jumpAndLink linkRegister (jumpTarget s.pc target) s

/-- JR (R132): no alignment check (R128). -/
def execJr (rs : RegIdx) (s : State) : Result := jumpTo (s.reg rs) s

/-- JALR (R133): the target is read before `rd` is written. -/
def execJalr (rs rd : RegIdx) (s : State) : Result := jumpAndLink rd (s.reg rs) s

/-- BEQ (R134). -/
def execBeq (rs rt : RegIdx) (imm : Imm16) (s : State) : Result :=
  branchIf (equalWords (s.reg rs) (s.reg rt)) imm s

/-- BNE (R135). -/
def execBne (rs rt : RegIdx) (imm : Imm16) (s : State) : Result :=
  branchIf (!equalWords (s.reg rs) (s.reg rt)) imm s

/-- BLEZ (R136). -/
def execBlez (rs : RegIdx) (imm : Imm16) (s : State) : Result := branchIf (atMostZero (s.reg rs)) imm s

/-- BGTZ (R137). -/
def execBgtz (rs : RegIdx) (imm : Imm16) (s : State) : Result := branchIf (aboveZero (s.reg rs)) imm s

/-- BLTZ (R138). -/
def execBltz (rs : RegIdx) (imm : Imm16) (s : State) : Result := branchIf (belowZero (s.reg rs)) imm s

/-- BGEZ (R139). -/
def execBgez (rs : RegIdx) (imm : Imm16) (s : State) : Result := branchIf (atLeastZero (s.reg rs)) imm s

end Sys2Proof.Machine
end

