-- ==== Sys2Proof/Machine/LoadStore.lean ====
section
/-! DEFINITION. Loads and stores (43_loadstore.md). One addressing mode, and one order of checks: alignment before
any access, then bounds (R114, R147). -/

namespace Sys2Proof.Machine

/-- A load of `w` bytes at `ea` into `d`, with `extend` applied to the bytes read. A misaligned `ea` is reported and
nothing else is done; an `ea` in no region is reported and the load receives 0 (R114). -/
def loadInto (word : Word) (w : Width) (extend : Word → Word) (d : RegIdx) (ea : Word) (s : State) : Result :=
  if aligned ea w then
    .next (((template s).setReg d (extend (memRead s ea w))).setReport
      (outOfBoundsReport s ea (dataReport .outOfBoundsMemoryAccess s.pc word ea .load w)))
  else .next (reportFault (template s) (dataReport .unalignedAccess s.pc word ea .load w))

/-- A store of the low `w` bytes of `v` at `ea`. A misaligned `ea` is reported and nothing is written; an `ea` in no
region is reported and nothing is written (R114). Memory is written at once, in this cycle (R47). -/
def storeFrom (word : Word) (w : Width) (v ea : Word) (s : State) : Result :=
  if aligned ea w then
    .next ((memWrite (template s) ea w v).setReport
      (outOfBoundsReport s ea (dataReport .outOfBoundsMemoryAccess s.pc word ea .store w)))
  else .next (reportFault (template s) (dataReport .unalignedAccess s.pc word ea .store w))

/-- LB (R116). -/
def execLb (rs rt : RegIdx) (imm : Imm16) (s : State) : Result :=
  loadInto (encode (.lb rs rt imm)) .byte signExtendByte rt (effectiveAddress (s.reg rs) imm) s

/-- LH (R117). -/
def execLh (rs rt : RegIdx) (imm : Imm16) (s : State) : Result :=
  loadInto (encode (.lh rs rt imm)) .half signExtendHalf rt (effectiveAddress (s.reg rs) imm) s

/-- LW (R118). -/
def execLw (rs rt : RegIdx) (imm : Imm16) (s : State) : Result :=
  loadInto (encode (.lw rs rt imm)) .word id rt (effectiveAddress (s.reg rs) imm) s

/-- LBU (R119). -/
def execLbu (rs rt : RegIdx) (imm : Imm16) (s : State) : Result :=
  loadInto (encode (.lbu rs rt imm)) .byte zeroExtendByte rt (effectiveAddress (s.reg rs) imm) s

/-- LHU (R120). -/
def execLhu (rs rt : RegIdx) (imm : Imm16) (s : State) : Result :=
  loadInto (encode (.lhu rs rt imm)) .half zeroExtendHalf rt (effectiveAddress (s.reg rs) imm) s

/-- SB (R121). -/
def execSb (rs rt : RegIdx) (imm : Imm16) (s : State) : Result :=
  storeFrom (encode (.sb rs rt imm)) .byte (s.reg rt) (effectiveAddress (s.reg rs) imm) s

/-- SH (R122). -/
def execSh (rs rt : RegIdx) (imm : Imm16) (s : State) : Result :=
  storeFrom (encode (.sh rs rt imm)) .half (s.reg rt) (effectiveAddress (s.reg rs) imm) s

/-- SW (R123). -/
def execSw (rs rt : RegIdx) (imm : Imm16) (s : State) : Result :=
  storeFrom (encode (.sw rs rt imm)) .word (s.reg rt) (effectiveAddress (s.reg rs) imm) s

end Sys2Proof.Machine
end

