-- ==== Sys2Proof/Machine/MulDiv.lean ====
section
/-! DEFINITION. Multiply, divide and the HI/LO transfers of 42_muldiv.md. -/

namespace Sys2Proof.Machine

/-- The template with HI and LO written (R103). -/
def writeHiLo (hi lo : Word) (s : State) : Result := .next (((template s).setHi hi).setLo lo)

/-- `HI <- p[63:32]; LO <- p[31:0]` (R106, R107). -/
def writeProduct (p : BitVec 64) (s : State) : Result :=
  writeHiLo (p.extractLsb' 32 32) (p.extractLsb' 0 32) s

/-- A division: with a zero divisor the fault is reported and HI and LO keep their values; otherwise the quotient
goes to LO and the remainder to HI (R105, R108, R109). -/
def divideInto (word divisor quotient remainder : Word) (s : State) : Result :=
  if divisor = 0#32 then
    .next (reportFault (template s) (instructionReport .divideByZero s.pc word))
  else writeHiLo remainder quotient s

/-- The quotient rounded toward zero, modulo 2^32 (R104; the spec's D6 and D7). -/
def signedQuotient (a b : Word) : Word := BitVec.ofInt 32 (a.toInt.tdiv b.toInt)

/-- The remainder `a - q * b` of the truncating division (R104; the spec's D6). -/
def signedRemainder (a b : Word) : Word := BitVec.ofInt 32 (a.toInt.tmod b.toInt)

/-- `floor(a / b)` of the unsigned values (R104). -/
def unsignedQuotient (a b : Word) : Word := BitVec.ofNat 32 (a.toNat / b.toNat)

/-- `a mod b` of the unsigned values (R104). -/
def unsignedRemainder (a b : Word) : Word := BitVec.ofNat 32 (a.toNat % b.toNat)

/-- MULT (R106): the exact signed product modulo 2^64. -/
def execMult (rs rt : RegIdx) (s : State) : Result :=
  writeProduct (BitVec.ofInt 64 ((s.reg rs).toInt * (s.reg rt).toInt)) s

/-- MULTU (R107): the exact unsigned product. -/
def execMultu (rs rt : RegIdx) (s : State) : Result :=
  writeProduct (BitVec.ofNat 64 ((s.reg rs).toNat * (s.reg rt).toNat)) s

/-- DIV (R108). -/
def execDiv (rs rt rd : RegIdx) (shamt : BitVec 5) (s : State) : Result :=
  divideInto (encode (.div rs rt rd shamt)) (s.reg rt)
    (signedQuotient (s.reg rs) (s.reg rt)) (signedRemainder (s.reg rs) (s.reg rt)) s

/-- DIVU (R109). -/
def execDivu (rs rt rd : RegIdx) (shamt : BitVec 5) (s : State) : Result :=
  divideInto (encode (.divu rs rt rd shamt)) (s.reg rt)
    (unsignedQuotient (s.reg rs) (s.reg rt)) (unsignedRemainder (s.reg rs) (s.reg rt)) s

/-- MFHI (R110). -/
def execMfhi (rd : RegIdx) (s : State) : Result := writeResult rd s.hi s

/-- MFLO (R111). -/
def execMflo (rd : RegIdx) (s : State) : Result := writeResult rd s.lo s

/-- MTHI (R112): LO is unchanged. -/
def execMthi (rs : RegIdx) (s : State) : Result := .next ((template s).setHi (s.reg rs))

/-- MTLO (R113): HI is unchanged. -/
def execMtlo (rs : RegIdx) (s : State) : Result := .next ((template s).setLo (s.reg rs))

end Sys2Proof.Machine
end

