-- ==== Sys2Proof/Machine/System.lean ====
section
/-! DEFINITION. SYSCALL and the illegal instruction (45_system.md). -/

namespace Sys2Proof.Machine

/-- SYSCALL (R140): `running := false` and the template; no register is examined (the spec's D28). -/
def execSyscall (s : State) : Result := .next ((template s).setRunning false)

/-- An illegal word (R141): IllegalInstruction is reported, the next state is `pc + 4` and no other mutation. -/
def illegalWord (word : Word) (s : State) : State :=
  reportFault (template s) (instructionReport .illegalInstruction s.pc word)

end Sys2Proof.Machine
end

