-- ==== Sys2Proof/Machine/Cycle.lean ====
section
/-! DEFINITION. The cycle FETCH, DECODE, EXECUTE, COMMIT (40_cycle.md R67 to R77), what gates it, and where a fetched
word is placed. -/

namespace Sys2Proof.Machine

/-- What FETCH brings: nothing when the pc is misaligned (R70), else a word and the fetch's own report, if any
(R68, R69). -/
inductive Fetched where
  | misaligned
  | word (w : Word) (report : Option FaultReport)
deriving DecidableEq, Repr

/-- FETCH (R68 to R70): an aligned pc reads one word through the address decoder; outside every region the word is 0
and the access is reported. -/
def fetch (s : State) : Fetched :=
  if aligned s.pc .word then
    .word (memRead s s.pc .word)
      (outOfBoundsReport s s.pc (fetchReport .outOfBoundsMemoryAccess s.pc))
  else .misaligned

/-- The cycle's report: the fetch's when there is one, since its check comes first (R147), else EXECUTE's. -/
def mergeReport (fetchSays : Option FaultReport) (next : State) : State :=
  match fetchSays with
  | some r => next.setReport (some r)
  | none => next

/-- COMMIT of what EXECUTE answers (R76). -/
def finish (fetchSays : Option FaultReport) : Result → Result
  | .next t => .next (commit (mergeReport fetchSays t))
  | .fault f => .fault f
  | .refused r => .refused r

/-- One cycle (R67). It runs only when `running` is true, which `stepOnce` sees to. -/
def cycle (s : State) : Result :=
  match fetch s with
  | .misaligned => .next (commit (reportFault (template s) (fetchReport .unalignedAccess s.pc)))
  | .word w fetchSays =>
    match decodeWord w with
    | .ok i => finish fetchSays (exec i s)
    | .error _ => .next (commit (illegalWord w s))

/-- The host's `step(1)`: one cycle while `running` is true, and nothing at all while it is false (R27, R164; the
spec's D30; log 4). A region table that breaks R33 is refused (log 5). -/
def stepOnce (s : State) : Result :=
  if regionsAdmissible s.regions then
    (if s.running then cycle s else .next s)
  else .refused .inadmissibleRegions

/-- An address FETCH can read a word from: aligned and in a region (R68). -/
def fetchable (s : State) (a : Word) : Bool := aligned a .word && inBounds s a

/-- `w` stored where the next cycle fetches: at the pc, which is moved to `TEXT_BASE` only when it is an address no
word can be fetched from; a halted core is set running (log 2). -/
def placeFetchWord (s : State) (w : Word) : State :=
  let at_ := if fetchable s s.pc then s.pc else Config.textBase
  memWrite ((s.setPc at_).setRunning true) at_ .word w

end Sys2Proof.Machine
end

