-- ==== Sys2Proof/Machine/HostInterface.lean ====
section
/-! DEFINITION. The operations the core offers its host between cycles (10_state.md R30, 70_reset_and_hazards.md,
20_memory.md R51 and R53). Each is atomic with respect to cycles (R163) and is a function on the state; what it
reports goes to the host as its answer and not into the state (R31; log 3). None of them looks whether the region
table is admissible, which `step` does (R33; log 5). -/

namespace Sys2Proof.Machine

/-! ## Running -/

/-- `step(n)`: up to `n` cycles or until `running` becomes false, with the fault reports of the cycles run, in order
(R164, R78). -/
def hostStep : Nat → State → Result × List FaultReport
  | 0, s => (.next s, [])
  | n + 1, s =>
    if s.running then
      match step s with
      | .next t =>
        let after := hostStep n t
        (after.1, t.report.toList ++ after.2)
      | .fault f => (.fault f, [])
      | .refused r => (.refused r, [])
    else (.next s, [])

/-- `run_to_completion()` from `s` ends in `t` with these reports (R164; `run_until_stop` is its other name, C6). A
relation, since the run need not end (U15; log 19). -/
def RunsToCompletion (s t : State) (reports : List FaultReport) : Prop :=
  ∃ n, hostStep n s = (.next t, reports) ∧ t.running = false

/-- `stop()`: between cycles it sets `running` to false (R165). -/
def hostStop (s : State) : State := s.setRunning false

/-! ## Memory and program loading -/

/-- What `write_word` reports to the host or the loader at an aligned address (R40, R51, R53). -/
def hostWriteReport (s : State) (a : Word) : Option FaultReport :=
  outOfBoundsReport s a (hostReport .outOfBoundsMemoryAccess a .store)

/-- `read_memory_word(a)`: the word, if the access is performed, and the report to the host (R53). -/
def readMemoryWord (s : State) (a : Word) : Option Word × Option FaultReport :=
  if aligned a .word then
    (some (memRead s a .word), outOfBoundsReport s a (hostReport .outOfBoundsMemoryAccess a .load))
  else (none, some (hostReport .unalignedAccess a .load))

/-- `write_memory_word(a, v)`: the state after, and the report to the host (R53). -/
def writeMemoryWord (s : State) (a v : Word) : State × Option FaultReport :=
  if aligned a .word then (memWrite s a .word v, hostWriteReport s a)
  else (s, some (hostReport .unalignedAccess a .store))

/-- The words of a program written from `a` up, 4 bytes a word, with the reports of the words that fall outside
every region (R51). -/
def loadWords (s : State) (a : Word) : List Word → State × List FaultReport
  | [] => (s, [])
  | w :: ws =>
    let rest := loadWords (memWrite s a .word w) (a + 4#32) ws
    (rest.1, (hostWriteReport s a).toList ++ rest.2)

/-- `load_program(words)`: the words from `TEXT_BASE` up, and the word count recorded (R51, R29). -/
def loadProgram (s : State) (words : List Word) : State × List FaultReport :=
  let loaded := loadWords s Config.textBase words
  (loaded.1.setProgramWordCount (BitVec.ofNat 32 words.length), loaded.2)

/-! ## Reset -/

/-- The state before the program is loaded: every region zero, registers, HI, LO and the count 0, `running` true and
the pc at `TEXT_BASE` (R158). -/
def blankState (regions : List Region) (program : List Word) : State :=
  { State.reset with regions := regions, program := program }

/-- Initialization of a core configured with a region table and a program (R159): the state, and the reports of its
`load_program` (R51). DESIGN CHOICE: the spec names no receiver for these reports here, and initialization answers
them itself (log 21); a table that breaks R33 is refused by `step` and not here (log 5). -/
def powerOn (regions : List Region) (program : List Word) : State × List FaultReport :=
  loadProgram (blankState regions program) program

/-- `reset()`: memory zeroed, the program loaded again and the rest of R158; the region table and `PROGRAM` stay. It
answers the state and the reports of its `load_program`. DESIGN CHOICE: the spec names no receiver for them
(log 21). -/
def hostReset (s : State) : State × List FaultReport := powerOn s.regions s.program

/-! ## Registers -/

/-- A register index of the host's, if it is one of 0..31 (R166). -/
def hostIndex (i : Nat) : Except Refusal RegIdx :=
  if i < 32 then .ok (BitVec.ofNat 5 i) else .error (.registerIndexOutOfRange i)

/-- `read_register(i)`: 0 for register 0; an index outside 0..31 is refused (R166; the spec's D18). -/
def readRegister (s : State) (i : Nat) : Except Refusal Word := (hostIndex i).map s.reg

/-- `write_register(i, v)`: discarded for register 0; an index outside 0..31 is refused (R166; the spec's D18). -/
def writeRegister (s : State) (i : Nat) (v : Word) : Result :=
  match hostIndex i with
  | .ok r => .next (s.setReg r v)
  | .error e => .refused e

/-- `read_hi` (R166). -/
def readHi (s : State) : Word := s.hi

/-- `read_lo` (R166). -/
def readLo (s : State) : Word := s.lo

/-- `write_hi(v)` (R166). -/
def writeHi (s : State) (v : Word) : State := s.setHi v

/-- `write_lo(v)` (R166). -/
def writeLo (s : State) (v : Word) : State := s.setLo v

/-- What the host may inspect beside registers and memory: `running`, `instruction_count`, `program_word_count`, and
the pc (R167). -/
def inspect (s : State) : Bool × Word × Word × Word :=
  (s.running, s.instructionCount, s.programWordCount, s.pc)

end Sys2Proof.Machine
end

