-- ==== Sys2Proof/Safety.lean ====
section
/-! DEFINITION. The terms claims are stated in: what a change of state leaves alone, the state's invariant, and a
clean run. -/

namespace Sys2Proof.Machine

/-! ## What stays the same -/

/-- Every general register reads the same. -/
def RegsSame (s t : State) : Prop := ∀ r : RegIdx, t.reg r = s.reg r

/-- Every general register but `d` reads the same. -/
def RegsSameBut (d : RegIdx) (s t : State) : Prop := ∀ r : RegIdx, r ≠ d → t.reg r = s.reg r

/-- HI and LO are the same. -/
def HiLoSame (s t : State) : Prop := t.hi = s.hi ∧ t.lo = s.lo

/-- Every byte of memory reads the same. -/
def MemSame (s t : State) : Prop := ∀ a : Nat, t.mem.read a = s.mem.read a

/-- Every byte of memory outside the `n` bytes from `a` up reads the same. -/
def MemSameOutside (a n : Nat) (s t : State) : Prop :=
  ∀ b : Nat, b < a ∨ a + n ≤ b → t.mem.read b = s.mem.read b

/-- The counters and the configuration are the same: everything but pc, registers, HI, LO, memory, `running` and the
cycle's report. -/
def CountersSame (s t : State) : Prop :=
  t.instructionCount = s.instructionCount ∧ t.programWordCount = s.programWordCount ∧
    t.regions = s.regions ∧ t.program = s.program

/-- `running`, the counters and the configuration are the same. -/
def RunStateSame (s t : State) : Prop := t.running = s.running ∧ CountersSame s t

/-! ## The shapes of an instruction's effect -/

/-- The one change of the architectural state besides the pc is that register `d` holds `v`, or nothing when `d` is
the hard-wired register 0. -/
def OnlyRegWritten (d : RegIdx) (v : Word) (s t : State) : Prop :=
  t.reg d = (if d = 0#5 then 0#32 else v) ∧ RegsSameBut d s t ∧ HiLoSame s t ∧ MemSame s t ∧ RunStateSame s t

/-- HI and LO hold these values and nothing else changes besides the pc. -/
def OnlyHiLoWritten (hi lo : Word) (s t : State) : Prop :=
  t.hi = hi ∧ t.lo = lo ∧ RegsSame s t ∧ MemSame s t ∧ RunStateSame s t

/-- Nothing changes besides the pc and the report. -/
def NothingWritten (s t : State) : Prop :=
  RegsSame s t ∧ HiLoSame s t ∧ MemSame s t ∧ RunStateSame s t

/-- The instruction completes, the pc advances by 4, no fault is reported, and register `d` receives `v`. -/
def WritesRegister (i : Instr) (s : State) (d : RegIdx) (v : Word) : Prop :=
  ∃ t, exec i s = .next t ∧ t.pc = s.pc + 4#32 ∧ t.report = none ∧ OnlyRegWritten d v s t

/-- The instruction completes, the pc advances by 4, no fault is reported, and HI and LO receive these values. -/
def WritesHiLo (i : Instr) (s : State) (hi lo : Word) : Prop :=
  ∃ t, exec i s = .next t ∧ t.pc = s.pc + 4#32 ∧ t.report = none ∧ OnlyHiLoWritten hi lo s t

/-- The instruction reports this fault with its own address, the pc advances by 4, and nothing is written. -/
def ReportsAndWritesNothing (i : Instr) (s : State) (code : FaultCode) : Prop :=
  ∃ t r, exec i s = .next t ∧ t.pc = s.pc + 4#32 ∧ t.report = some r ∧ r.code = code ∧ r.pc = some s.pc ∧
    NothingWritten s t

/-- The instruction completes with this next pc, reports nothing, and register `d` receives `v`. -/
def JumpsAndLinks (i : Instr) (s : State) (target : Word) (d : RegIdx) (v : Word) : Prop :=
  ∃ t, exec i s = .next t ∧ t.pc = target ∧ t.report = none ∧ OnlyRegWritten d v s t

/-- The load completes, reports an out-of-bounds access at `ea`, and its destination receives 0. -/
def LoadsZeroOutOfBounds (i : Instr) (s : State) (d : RegIdx) (ea : Word) (w : Width) : Prop :=
  ∃ t r, exec i s = .next t ∧ t.pc = s.pc + 4#32 ∧ t.report = some r ∧ r.code = .outOfBoundsMemoryAccess ∧
    r.pc = some s.pc ∧ r.access = some ⟨ea, .load, w⟩ ∧ OnlyRegWritten d 0#32 s t

/-- The access reports a fault at `ea`, the pc advances by 4, and nothing is written. -/
def AccessRefused (i : Instr) (s : State) (code : FaultCode) (ea : Word) (kind : AccessKind) (w : Width) : Prop :=
  ∃ t r, exec i s = .next t ∧ t.pc = s.pc + 4#32 ∧ t.report = some r ∧ r.code = code ∧ r.pc = some s.pc ∧
    r.access = some ⟨ea, kind, w⟩ ∧ NothingWritten s t

/-- The store completes: the `n` bytes from `ea` up are the low bytes of `v`, and nothing else changes but the pc. -/
def StoresBytes (i : Instr) (s : State) (ea : Word) (n : Nat) (v : Word) : Prop :=
  ∃ t, exec i s = .next t ∧ t.pc = s.pc + 4#32 ∧ t.report = none ∧ RegsSame s t ∧ HiLoSame s t ∧
    RunStateSame s t ∧ (∀ k, k < n → t.mem.read (ea.toNat + k) = v.extractLsb' (8 * k) 8) ∧
    MemSameOutside ea.toNat n s t

/-- The instruction completes with this next pc, reports nothing and writes nothing else. -/
def OnlyMovesPc (i : Instr) (s : State) (target : Word) : Prop :=
  ∃ t, exec i s = .next t ∧ t.pc = target ∧ t.report = none ∧ NothingWritten s t

/-! ## The invariant -/

/-- Every listed byte lies in a region. -/
abbrev CellsInRegions (s : State) : Prop :=
  ∀ c ∈ s.mem, c.1 < 2 ^ 32 ∧ inBounds s (BitVec.ofNat 32 c.1) = true

/-- What every step keeps: the storage of register 0 is 0 (R18), memory is in its canonical form and lists no byte
outside the regions, and the region table is admissible (R33). -/
abbrev State.Inv (s : State) : Prop :=
  s.regs[0] = 0#32 ∧ s.mem.wf ∧ CellsInRegions s ∧ regionsAdmissible s.regions = true

/-! ## Which instruction may change what -/

/-- The destination register of each instruction, as the table of R19 lists them. -/
def destination : Instr → Option RegIdx
  | .add _ _ rd _ | .addu _ _ rd _ | .sub _ _ rd _ | .subu _ _ rd _ | .and _ _ rd _ | .or _ _ rd _
  | .xor _ _ rd _ | .nor _ _ rd _ | .sll _ _ rd _ | .srl _ _ rd _ | .sra _ _ rd _ | .slt _ _ rd _
  | .sltu _ _ rd _ | .mfhi _ _ rd _ | .mflo _ _ rd _ | .jalr _ _ rd _ => some rd
  | .addi _ rt _ | .addiu _ rt _ | .andi _ rt _ | .ori _ rt _ | .xori _ rt _ | .slti _ rt _
  | .sltiu _ rt _ | .lui _ rt _ | .lb _ rt _ | .lh _ rt _ | .lw _ rt _ | .lbu _ rt _ | .lhu _ rt _ => some rt
  | .jal _ => some 31#5
  | .mult _ _ _ _ | .multu _ _ _ _ | .div _ _ _ _ | .divu _ _ _ _ | .mthi _ _ _ _ | .mtlo _ _ _ _
  | .sb _ _ _ | .sh _ _ _ | .sw _ _ _ | .j _ | .jr _ _ _ _ | .beq _ _ _ | .bne _ _ _ | .blez _ _ _
  | .bgtz _ _ _ | .bltz _ _ | .bgez _ _ | .syscall _ => none

/-- The instructions that may write HI (R22). -/
def mayWriteHi : Instr → Bool
  | .mult _ _ _ _ | .multu _ _ _ _ | .div _ _ _ _ | .divu _ _ _ _ | .mthi _ _ _ _ => true
  | .add _ _ _ _ | .addi _ _ _ | .addu _ _ _ _ | .addiu _ _ _ | .sub _ _ _ _ | .subu _ _ _ _ | .and _ _ _ _
  | .andi _ _ _ | .or _ _ _ _ | .ori _ _ _ | .xor _ _ _ _ | .xori _ _ _ | .nor _ _ _ _ | .sll _ _ _ _
  | .srl _ _ _ _ | .sra _ _ _ _ | .slt _ _ _ _ | .slti _ _ _ | .sltu _ _ _ _ | .sltiu _ _ _ | .lui _ _ _
  | .mfhi _ _ _ _ | .mflo _ _ _ _ | .mtlo _ _ _ _ | .lb _ _ _ | .lh _ _ _ | .lw _ _ _ | .lbu _ _ _
  | .lhu _ _ _ | .sb _ _ _ | .sh _ _ _ | .sw _ _ _ | .j _ | .jal _ | .jr _ _ _ _ | .jalr _ _ _ _
  | .beq _ _ _ | .bne _ _ _ | .blez _ _ _ | .bgtz _ _ _ | .bltz _ _ | .bgez _ _ | .syscall _ => false

/-- The instructions that may write LO (R22). -/
def mayWriteLo : Instr → Bool
  | .mult _ _ _ _ | .multu _ _ _ _ | .div _ _ _ _ | .divu _ _ _ _ | .mtlo _ _ _ _ => true
  | .add _ _ _ _ | .addi _ _ _ | .addu _ _ _ _ | .addiu _ _ _ | .sub _ _ _ _ | .subu _ _ _ _ | .and _ _ _ _
  | .andi _ _ _ | .or _ _ _ _ | .ori _ _ _ | .xor _ _ _ _ | .xori _ _ _ | .nor _ _ _ _ | .sll _ _ _ _
  | .srl _ _ _ _ | .sra _ _ _ _ | .slt _ _ _ _ | .slti _ _ _ | .sltu _ _ _ _ | .sltiu _ _ _ | .lui _ _ _
  | .mfhi _ _ _ _ | .mflo _ _ _ _ | .mthi _ _ _ _ | .lb _ _ _ | .lh _ _ _ | .lw _ _ _ | .lbu _ _ _
  | .lhu _ _ _ | .sb _ _ _ | .sh _ _ _ | .sw _ _ _ | .j _ | .jal _ | .jr _ _ _ _ | .jalr _ _ _ _
  | .beq _ _ _ | .bne _ _ _ | .blez _ _ _ | .bgtz _ _ _ | .bltz _ _ | .bgez _ _ | .syscall _ => false

/-- The data access an instruction makes: the effective address, the kind and the width of the loads and stores
(R114 to R123), and none for the others. -/
def dataAccess (i : Instr) (s : State) : Option Access :=
  match i with
  | .lb rs _ imm | .lbu rs _ imm => some ⟨effectiveAddress (s.reg rs) imm, .load, .byte⟩
  | .lh rs _ imm | .lhu rs _ imm => some ⟨effectiveAddress (s.reg rs) imm, .load, .half⟩
  | .lw rs _ imm => some ⟨effectiveAddress (s.reg rs) imm, .load, .word⟩
  | .sb rs _ imm => some ⟨effectiveAddress (s.reg rs) imm, .store, .byte⟩
  | .sh rs _ imm => some ⟨effectiveAddress (s.reg rs) imm, .store, .half⟩
  | .sw rs _ imm => some ⟨effectiveAddress (s.reg rs) imm, .store, .word⟩
  | .add _ _ _ _ | .addi _ _ _ | .addu _ _ _ _ | .addiu _ _ _ | .sub _ _ _ _ | .subu _ _ _ _ | .and _ _ _ _
  | .andi _ _ _ | .or _ _ _ _ | .ori _ _ _ | .xor _ _ _ _ | .xori _ _ _ | .nor _ _ _ _ | .sll _ _ _ _
  | .srl _ _ _ _ | .sra _ _ _ _ | .slt _ _ _ _ | .slti _ _ _ | .sltu _ _ _ _ | .sltiu _ _ _ | .lui _ _ _
  | .mult _ _ _ _ | .multu _ _ _ _ | .div _ _ _ _ | .divu _ _ _ _ | .mfhi _ _ _ _ | .mflo _ _ _ _
  | .mthi _ _ _ _ | .mtlo _ _ _ _ | .j _ | .jal _ | .jr _ _ _ _ | .jalr _ _ _ _ | .beq _ _ _ | .bne _ _ _
  | .blez _ _ _ | .bgtz _ _ _ | .bltz _ _ | .bgez _ _ | .syscall _ => none

/-- The address and number of bytes an instruction stores: those of its data access when it is a store (R115, R121
to R123). -/
def storedBytes (i : Instr) (s : State) : Option (Word × Nat) :=
  match dataAccess i s with
  | some ⟨ea, .store, w⟩ => some (ea, w.bytes)
  | some ⟨_, .load, _⟩ | some ⟨_, .fetch, _⟩ | none => none

/-! ## What is seen of a store -/

/-- The byte at the address `b` once the low `n` bytes of `v` are stored from `ea` up: one of them, or the byte that
was there (R43, R44). -/
def byteAfterStore (s : State) (ea : Word) (n : Nat) (v : Word) (b : Nat) : Byte :=
  if ea.toNat ≤ b ∧ b < ea.toNat + n then v.extractLsb' (8 * (b - ea.toNat)) 8 else s.mem.read b

/-- Every aligned load of `t` inside a region, whatever its base, offset and destination, receives these bytes. -/
def LoadsSee (t : State) (byteAt : Nat → Byte) : Prop :=
  ∀ (base d : RegIdx) (off : Imm16) (a : Word), a = t.reg base + off.signExtend 32 → inBounds t a = true →
    WritesRegister (.lb base d off) t d ((byteAt a.toNat).signExtend 32) ∧
    WritesRegister (.lbu base d off) t d ((byteAt a.toNat).setWidth 32) ∧
    (a.toNat % 2 = 0 →
      WritesRegister (.lh base d off) t d
        ((byteAt (a.toNat + 1) ++ byteAt a.toNat : BitVec 16).signExtend 32) ∧
      WritesRegister (.lhu base d off) t d
        ((byteAt (a.toNat + 1) ++ byteAt a.toNat : BitVec 16).setWidth 32)) ∧
    (a.toNat % 4 = 0 →
      WritesRegister (.lw base d off) t d
        (byteAt (a.toNat + 3) ++ byteAt (a.toNat + 2) ++ byteAt (a.toNat + 1) ++ byteAt a.toNat))

/-- The step of `s` completes, and the next fetch brings the word of these bytes at the next pc, little-endian. -/
def NextFetchSees (s : State) (byteAt : Nat → Byte) : Prop :=
  ∃ t, step s = .next t ∧ t.pc = s.pc + 4#32 ∧
    fetch t = .word (byteAt (t.pc.toNat + 3) ++ byteAt (t.pc.toNat + 2) ++ byteAt (t.pc.toNat + 1) ++
      byteAt t.pc.toNat) none

/-! ## A cycle that fetches an instruction -/

/-- The next cycle of `s` fetches, from an aligned address in a region, a word that decodes to `i`. -/
def Fetches (s : State) (i : Instr) : Prop :=
  regionsAdmissible s.regions = true ∧ s.running = true ∧ fetchable s s.pc = true ∧
    decodeWord (s.mem.readWord s.pc.toNat) = .ok i

/-- The next cycle of `s` runs and its step ends in `t`. -/
def Cycles (s t : State) : Prop := s.running = true ∧ step s = .next t

/-! ## A clean run -/

/-- `n` cycles report no fault: the run is as fault-free as a claim about a program can ask (R78 does not promise
it). -/
def CleanRun (n : Nat) (s : State) : Prop := (hostStep n s).2 = []

end Sys2Proof.Machine
end

