-- ==== Sys2Proof/Certificates/Slice0/Obligations.lean ====
section
/-! DEFINITION. The statements about the model, for the provers. A rule of spec/ marked there as the spec's own
decision ("D<n>") or inference ("derived") is named so in the docstring of the statement that rests on it. -/

open Sys2Proof Sys2Proof.Machine

/-! ## Encoding -/

/-- Decoding an encoded instruction gives it back, with every field at every value, from the word and from its four
bytes followed by any others. Rests on the numbers of D1 and D8 (log 11) and on the ignored fields being kept
(log 8). -/
def Obligations.DecodeInvertsEncode : Prop :=
  ∀ (i : Instr) (rest : List Byte),
    i.wellFormed = true ∧ decodeWord (encode i) = .ok i ∧
      decodeBytes (bytesOfWord (encode i) ++ rest) = .ok (i, rest)

/-- Each word that decodes is the encoding of what it decodes to: no bit of a word is dropped (30_encoding.md R61 by
the spec's D2, R63 derived there; log 8). -/
def Obligations.EncodeInvertsDecode : Prop :=
  ∀ (w : Word) (i : Instr), decodeWord w = .ok i → encode i = w

/-- The decoder equals opcode_table.json: a decoded word is selected by the row of its name, a row that selects a
word names what the word decodes to, and no word is selected by two rows (40_cycle.md R74; the numbers are D1 and
D8; log 11). -/
def Obligations.DecoderAgreesWithOpcodeTable : Prop :=
  ∀ w : Word,
    (∀ i, decodeWord w = .ok i → ∃ r ∈ opcodeTable, r.mnemonic = i.mnemonic ∧ r.selects w) ∧
    (∀ r ∈ opcodeTable, r.selects w → ∃ i, decodeWord w = .ok i ∧ i.mnemonic = r.mnemonic) ∧
    (∀ r ∈ opcodeTable, ∀ q ∈ opcodeTable, r.selects w → q.selects w → r = q)

/-- The decoder rejects a word exactly when it is in the list of 30_encoding.md R62: an opcode of (a), a funct of (b)
under opcode 0, or an rt of (c) under opcode 1. The numbers are D1 and D8 (log 11). -/
def Obligations.IllegalWordsAreExactlyTheListed : Prop :=
  ∀ w : Word,
    (∃ e, decodeWord w = .error e) ↔
      ((0x10 ≤ (w.extractLsb' 26 6).toNat ∧ (w.extractLsb' 26 6).toNat ≤ 0x1F) ∨
        (w.extractLsb' 26 6).toNat ∈ [0x22, 0x26, 0x27, 0x2A] ∨ 0x2C ≤ (w.extractLsb' 26 6).toNat) ∨
      (w.extractLsb' 26 6 = 0#6 ∧
        ((w.extractLsb' 0 6).toNat ∈
            [0x01, 0x04, 0x05, 0x06, 0x07, 0x0A, 0x0B, 0x0D, 0x0E, 0x0F, 0x14, 0x15, 0x16, 0x17,
             0x1C, 0x1D, 0x1E, 0x1F, 0x28, 0x29] ∨ 0x2C ≤ (w.extractLsb' 0 6).toNat)) ∨
      (w.extractLsb' 26 6 = 1#6 ∧ w.extractLsb' 16 5 ≠ 0#5 ∧ w.extractLsb' 16 5 ≠ 1#5)

/-- Words written out bit by bit from 30_encoding.md decode to the instructions they stand for, one or more of each
family (a sanity statement). The numbers other than those of ADD and ADDI are D1 and D8 (log 11). -/
def Obligations.SampleWordsDecode : Prop :=
  decodeWord 0b000000_01000_01001_00100_00000_100000#32 = .ok (.add 8 9 4 0) ∧
  decodeWord 0b001000_00000_01000_0000000000000101#32 = .ok (.addi 0 8 5) ∧
  decodeWord 0b000000_00001_00010_00000_00000_011010#32 = .ok (.div 1 2 0 0) ∧
  decodeWord 0b100011_00001_00011_1111111111111100#32 = .ok (.lw 1 3 0xFFFC) ∧
  decodeWord 0b101011_00001_00010_0000000000000000#32 = .ok (.sw 1 2 0) ∧
  decodeWord 0b000011_00000100000000000000000100#32 = .ok (.jal 0x0100004) ∧
  decodeWord 0b000001_00001_00001_0000000000000011#32 = .ok (.bgez 1 3) ∧
  decodeWord 0b000000_11111_11111_11111_11111_001100#32 = .ok (.syscall 0xFFFFF) ∧
  decodeWord 0b000001_00001_00010_0000000000000011#32 = .error (.illegalSubOpcode 2)

/-- The fields of a word are its bit ranges, all of them always extracted: a word is opcode, rs, rt, rd, shamt and
funct put together from bit 31 down, and imm16 and target26 overlap them (30_encoding.md R55). -/
def Obligations.FieldsAreTheBitRangesOfTheWord : Prop :=
  ∀ w : Word,
    w = (fields w).opcode ++ (fields w).rs ++ (fields w).rt ++ (fields w).rd ++ (fields w).shamt ++
        (fields w).funct ∧
      (fields w).imm16 = (fields w).rd ++ (fields w).shamt ++ (fields w).funct ∧
      (fields w).target26 = (fields w).rs ++ (fields w).rt ++ (fields w).imm16

/-- The field of a branch to a label is defined exactly when the distance from `pc + 4` is a multiple of 4 in
-131072..131068, and the branch with that field goes to the label (30_encoding.md R65 and 44_control.md R126; the
assembler order is general knowledge). -/
def Obligations.BranchFieldReachesItsLabel : Prop :=
  ∀ pc label : Word,
    ((branchField pc label).isSome = true ↔
      (label - (pc + 4#32)).toInt % 4 = 0 ∧ -131072 ≤ (label - (pc + 4#32)).toInt ∧
        (label - (pc + 4#32)).toInt ≤ 131068) ∧
    (∀ imm, branchField pc label = some imm → branchTarget pc imm = label)

/-! ## The cycle -/

/-- When the word at an aligned pc inside a region decodes to `i`, the step of a running core is EXECUTE of `i`
followed by COMMIT, which adds 1 to the instruction count and nothing else (40_cycle.md R67, R68, R74, R76). -/
def Obligations.StepRunsTheFetchedInstruction : Prop :=
  ∀ (s : State) (i : Instr), Fetches s i →
    ∃ t, exec i s = .next t ∧ step s = .next { t with instructionCount := t.instructionCount + 1#32 }

/-- A word in a region, read by a load or by the fetch, is `byte0 | byte1<<8 | byte2<<16 | byte3<<24`
(20_memory.md R38). -/
def Obligations.WordsAreLittleEndian : Prop :=
  ∀ (s : State) (a : Word), aligned a .word = true → inBounds s a = true →
    memRead s a .word =
        (s.mem.read a.toNat).setWidth 32 ||| (s.mem.read (a.toNat + 1)).setWidth 32 <<< 8 |||
          (s.mem.read (a.toNat + 2)).setWidth 32 <<< 16 ||| (s.mem.read (a.toNat + 3)).setWidth 32 <<< 24 ∧
      fetch { s with pc := a } = .word (memRead s a .word) none

/-- At a misaligned pc nothing is fetched or executed: the cycle reports UnalignedAccess at the pc, advances the pc
by 4 and counts (40_cycle.md R70, the spec's D15; the record's fields are D19; log 13, log 7). -/
def Obligations.MisalignedFetchExecutesNothing : Prop :=
  ∀ s : State, regionsAdmissible s.regions = true → s.running = true → s.pc.toNat % 4 ≠ 0 →
    step s = .next { s with
      pc := s.pc + 4#32
      instructionCount := s.instructionCount + 1#32
      report := some ⟨.unalignedAccess, some s.pc, none, some ⟨s.pc, .fetch, .word⟩⟩ }

/-- At an aligned pc outside every region the word 0 runs as a NOP: the cycle reports OutOfBoundsMemoryAccess at the
pc, advances the pc by 4 and counts (40_cycle.md R69 derived there, the spec's D12; the record's fields are D19;
log 13, log 7). -/
def Obligations.OutOfBoundsFetchRunsAsNop : Prop :=
  ∀ s : State, regionsAdmissible s.regions = true → s.running = true → s.pc.toNat % 4 = 0 →
    inBounds s s.pc = false →
    step s = .next { s with
      pc := s.pc + 4#32
      instructionCount := s.instructionCount + 1#32
      report := some ⟨.outOfBoundsMemoryAccess, some s.pc, none, some ⟨s.pc, .fetch, .word⟩⟩ }

/-- A word that decodes to no instruction reports IllegalInstruction with its pc and word; the next state has `pc + 4`
and no other mutation but the count (45_system.md R141), and the rule's two example words are such words. -/
def Obligations.IllegalWordOnlyReports : Prop :=
  (∀ (s : State) (e : DecodeError), regionsAdmissible s.regions = true → s.running = true →
    fetchable s s.pc = true → decodeWord (s.mem.readWord s.pc.toNat) = .error e →
    step s = .next { s with
      pc := s.pc + 4#32
      instructionCount := s.instructionCount + 1#32
      report := some ⟨.illegalInstruction, some s.pc, some (s.mem.readWord s.pc.toNat), none⟩ }) ∧
  (∃ e, decodeWord 0x04220003#32 = .error e) ∧ (∃ e, decodeWord 0x00000004#32 = .error e)

/-- Every cycle that runs commits and counts, one that reported a fault included (40_cycle.md R76). -/
def Obligations.EveryRunningCycleCommits : Prop :=
  ∀ s : State, regionsAdmissible s.regions = true → s.running = true →
    (∃ t, step s = .next t) ∧
      ∀ t, step s = .next t → t.instructionCount = s.instructionCount + 1#32

/-- While `running` is false a step changes nothing, and the host's step(n) runs no cycle and reports nothing
(70_reset_and_hazards.md R164, the spec's D30; log 4, log 16). -/
def Obligations.HaltedCoreChangesNothing : Prop :=
  ∀ (s : State) (n : Nat), regionsAdmissible s.regions = true → s.running = false →
    step s = .next s ∧ hostStep n s = (.next s, [])

/-- `running` becomes false in a cycle exactly when the cycle executes SYSCALL; that cycle commits `pc + 4` and the
count, and a step after it changes nothing (40_cycle.md R77; log 4 by the spec's D30). Of the host's operations only
the stop request sets it false, and reset sets it true: the writes of registers, HI, LO and memory and `load_program`
leave it (R27, 70_reset_and_hazards.md R165, the spec's D22 and D29; log 16). -/
def Obligations.OnlySyscallOrStopHalts : Prop :=
  (∀ s t : State, Cycles s t →
    (t.running = false ↔ ∃ ignored, Fetches s (.syscall ignored)) ∧
    (t.running = false →
      t.pc = s.pc + 4#32 ∧ t.instructionCount = s.instructionCount + 1#32 ∧ step t = .next t)) ∧
  (∀ s : State, hostStop s = { s with running := false } ∧ (hostReset s).1.running = true) ∧
  (∀ (s : State) (a v : Word) (i : Nat) (words : List Word),
    (writeMemoryWord s a v).1.running = s.running ∧ (loadProgram s words).1.running = s.running ∧
      (writeHi s v).running = s.running ∧ (writeLo s v).running = s.running ∧
      ∀ t, writeRegister s i v = .next t → t.running = s.running)

/-- A cycle that reports a fault goes on at `pc + 4` with HI, LO, memory and `running` as they were, and with every
register as it was but for the destination of an out-of-bounds load, which holds 0; the report names the cycle's own
pc (60_exceptions.md R146, R148 derived there, R149). -/
def Obligations.FaultingCycleGoesOnAtNextPc : Prop :=
  ∀ (s t : State) (r : FaultReport), Cycles s t → t.report = some r →
    t.pc = s.pc + 4#32 ∧ r.pc = some s.pc ∧ HiLoSame s t ∧ MemSame s t ∧ t.running = true ∧
      (RegsSame s t ∨
        (r.code = .outOfBoundsMemoryAccess ∧
          ∃ i d, Fetches s i ∧ destination i = some d ∧ t.reg d = 0#32 ∧ RegsSameBut d s t))

/-- The records of the faults an instruction raises hold its pc and its whole word. An access fault's holds the
effective address, kind and width of the instruction's own access, and the record of an overflow or a division by
zero holds no access. The five fault codes are numbered 1 to 5 (60_exceptions.md R144, the spec's D19; log 7, log 8,
log 15). -/
def Obligations.FaultRecordsNameTheInstruction : Prop :=
  (∀ (i : Instr) (s t : State) (r : FaultReport), exec i s = .next t → t.report = some r →
    r.pc = some s.pc ∧ r.word = some (encode i) ∧ r.access = dataAccess i s ∧
      ((r.code = .arithmeticOverflow ∨ r.code = .divideByZero) ∧ r.access = none ∨
        (r.code = .outOfBoundsMemoryAccess ∨ r.code = .unalignedAccess) ∧ r.access.isSome = true)) ∧
  (FaultCode.number .illegalInstruction = 1 ∧ FaultCode.number .arithmeticOverflow = 2 ∧
    FaultCode.number .divideByZero = 3 ∧ FaultCode.number .outOfBoundsMemoryAccess = 4 ∧
    FaultCode.number .unalignedAccess = 5)

/-- Every write of register 0 is discarded, so whatever the instruction, register 0 is 0 at COMMIT
(40_cycle.md R75). -/
def Obligations.RegisterZeroStaysZero : Prop :=
  (∀ (s : State) (v : Word), s.setReg 0#5 v = s) ∧
  (∀ (i : Instr) (s t : State), s.regs[0] = 0#32 → exec i s = .next t →
    t.regs[0] = 0#32 ∧ t.reg 0#5 = 0#32) ∧
  (∀ s t : State, s.regs[0] = 0#32 → step s = .next t → t.regs[0] = 0#32)

/-! ## Invariants and reset -/

/-- Every step keeps the invariant: register 0's storage is 0, memory is canonical and lists bytes of regions only,
and the region table is admissible (10_state.md R18, 20_memory.md R32, R33). The canonical form of memory is the
model's own (log 6). -/
def Obligations.StepKeepsTheInvariant : Prop :=
  ∀ s t : State, s.Inv → step s = .next t → t.Inv

/-- The state after reset meets the invariant. It rests on the model's default region table (log 1), empty program
(log 2) and canonical form of memory (log 6). -/
def Obligations.ResetMeetsTheInvariant : Prop := State.reset.Inv

/-- The state after reset: pc 0x00400000 (the spec's D9), every register, HI, LO and the count 0 (D23), running (D22),
all memory 0, and an instruction can be fetched (10_state.md R16, 70_reset_and_hazards.md R158, R161). The default
region table (log 1), the empty program with its word count 0 (log 2) and the empty report (log 3) are the model's
choice; initialization with them gives this state and reports nothing (R159; log 21). -/
def Obligations.ResetStateValues : Prop :=
  State.reset.pc = 0x00400000#32 ∧ (∀ r : RegIdx, State.reset.reg r = 0#32) ∧ State.reset.hi = 0#32 ∧
    State.reset.lo = 0#32 ∧ State.reset.running = true ∧ State.reset.instructionCount = 0#32 ∧
    (∀ a : Nat, State.reset.mem.read a = 0#8) ∧ fetchable State.reset State.reset.pc = true ∧
    State.reset.regions = [⟨0x00400000#32, 0x004FFFFF#32⟩, ⟨0x10010000#32, 0x1010FFFF#32⟩] ∧
    State.reset.program = [] ∧ State.reset.programWordCount = 0#32 ∧ State.reset.report = none ∧
    powerOn Config.defaultRegions [] = (State.reset, [])

/-- The host's reset gives the values of 70_reset_and_hazards.md R158 from any state: the pc, registers, HI, LO, count
and `running`; memory that holds the words of `PROGRAM` at their addresses inside a region and 0 everywhere else; and
the reports of the words outside every region. It keeps the region table and the program, depends on nothing else, and
is idempotent (R160, derived there; the spec's D9, D22, D23, D24). The program kept in the state is log 2, the empty
report log 3, the count modulo 2^32 log 18, and that reset answers the reports log 21. The clauses on memory are for a
program too short to wrap around the address space. -/
def Obligations.HostResetIsIdempotent : Prop :=
  ∀ s t : State, t = (hostReset s).1 →
    (t.pc = 0x00400000#32 ∧ (∀ r : RegIdx, t.reg r = 0#32) ∧ t.hi = 0#32 ∧ t.lo = 0#32 ∧ t.running = true ∧
      t.instructionCount = 0#32 ∧ t.programWordCount = BitVec.ofNat 32 s.program.length ∧
      t.regions = s.regions ∧ t.program = s.program ∧ t.report = none) ∧
    (0x00400000 + 4 * s.program.length ≤ 2 ^ 32 →
      (∀ (k : Nat) (h : k < s.program.length),
        t.mem.readWord (0x00400000 + 4 * k) =
          if inBounds s (0x00400000#32 + BitVec.ofNat 32 (4 * k)) = true then s.program[k] else 0#32) ∧
      (∀ b : Nat, b < 0x00400000 ∨ 0x00400000 + 4 * s.program.length ≤ b → t.mem.read b = 0#8)) ∧
    (hostReset s).2 =
      (List.range s.program.length).filterMap
        (fun k => hostWriteReport s (0x00400000#32 + BitVec.ofNat 32 (4 * k))) ∧
    (∀ s' : State, s'.regions = s.regions → s'.program = s.program → hostReset s' = hostReset s) ∧
    hostReset t = hostReset s

/-! ## Frames over all instructions -/

/-- No instruction changes a general register other than the destination 10_state.md R19 gives it (derived there),
and none changes the counters, the region table or the program. -/
def Obligations.OnlyTheDestinationRegisterChanges : Prop :=
  ∀ (i : Instr) (s t : State), exec i s = .next t →
    (∀ r : RegIdx, destination i ≠ some r → t.reg r = s.reg r) ∧ CountersSame s t ∧
      (i.mnemonic ≠ "SYSCALL" → t.running = s.running)

/-- No instruction other than MULT, MULTU, DIV, DIVU and MTHI writes HI, and none other than those four and MTLO
writes LO (10_state.md R22). -/
def Obligations.OnlyMultiplyDivideAndMovesWriteHiLo : Prop :=
  ∀ (i : Instr) (s t : State), exec i s = .next t →
    (i.mnemonic ∉ ["MULT", "MULTU", "DIV", "DIVU", "MTHI"] → t.hi = s.hi) ∧
    (i.mnemonic ∉ ["MULT", "MULTU", "DIV", "DIVU", "MTLO"] → t.lo = s.lo)

/-- SB, SH and SW change no byte outside the 1, 2 or 4 from their effective address up, and no other instruction
changes any byte (20_memory.md R44 by D16, R47). -/
def Obligations.OnlyStoresChangeMemory : Prop :=
  ∀ (i : Instr) (s t : State), s.mem.wf → exec i s = .next t →
    (∀ a n, storedBytes i s = some (a, n) → MemSameOutside a.toNat n s t) ∧
    (storedBytes i s = none → MemSame s t)

/-- Every instruction but a jump or a branch goes on at `pc + 4`, and from an aligned pc only JR and JALR can reach a
misaligned one (10_state.md R20, R21 by D17, 44_control.md R128 by D15). -/
def Obligations.OnlyRegisterJumpsMisalignThePc : Prop :=
  ∀ (i : Instr) (s t : State), exec i s = .next t →
    (i.mnemonic ∉ ["J", "JAL", "JR", "JALR", "BEQ", "BNE", "BLEZ", "BGTZ", "BLTZ", "BGEZ"] →
      t.pc = s.pc + 4#32) ∧
    (s.pc.toNat % 4 = 0 → i.mnemonic ∉ ["JR", "JALR"] → t.pc.toNat % 4 = 0)

/-! ## ALU -/

/-- ADD (41_alu.md R81): its word, the sum when it is in the signed range, and on overflow the report and no write. -/
def Obligations.AddTrapsOnSignedOverflow : Prop :=
  ∀ (rs rt rd : RegIdx) (shamt : BitVec 5) (s : State),
    encode (.add rs rt rd shamt) = 0b000000#6 ++ rs ++ rt ++ rd ++ shamt ++ 0x20#6 ∧
    ((s.reg rs).toInt + (s.reg rt).toInt < -2 ^ 31 ∨ (s.reg rs).toInt + (s.reg rt).toInt > 2 ^ 31 - 1 →
      ReportsAndWritesNothing (.add rs rt rd shamt) s .arithmeticOverflow) ∧
    (-2 ^ 31 ≤ (s.reg rs).toInt + (s.reg rt).toInt → (s.reg rs).toInt + (s.reg rt).toInt ≤ 2 ^ 31 - 1 →
      WritesRegister (.add rs rt rd shamt) s rd (s.reg rs + s.reg rt))

/-- ADDI (41_alu.md R82): its word, the sum with the sign-extended immediate when it is in the signed range, and on
overflow the report and no write. -/
def Obligations.AddImmediateTrapsOnSignedOverflow : Prop :=
  ∀ (rs rt : RegIdx) (imm : Imm16) (s : State),
    encode (.addi rs rt imm) = 0x08#6 ++ rs ++ rt ++ imm ∧
    ((s.reg rs).toInt + imm.toInt < -2 ^ 31 ∨ (s.reg rs).toInt + imm.toInt > 2 ^ 31 - 1 →
      ReportsAndWritesNothing (.addi rs rt imm) s .arithmeticOverflow) ∧
    (-2 ^ 31 ≤ (s.reg rs).toInt + imm.toInt → (s.reg rs).toInt + imm.toInt ≤ 2 ^ 31 - 1 →
      WritesRegister (.addi rs rt imm) s rt (s.reg rs + imm.signExtend 32))

/-- Signed overflow on exact integers is equal signs of the operands and another sign of the wrapped sum, and when it
holds ADD and ADDI report and do not write the destination (41_alu.md R80). -/
def Obligations.OverflowIsEqualSignsAndAnotherSum : Prop :=
  (∀ a b : Word,
    (a.toInt + b.toInt < -2 ^ 31 ∨ a.toInt + b.toInt > 2 ^ 31 - 1) ↔
      (a.getLsbD 31 = b.getLsbD 31 ∧ (a + b).getLsbD 31 ≠ a.getLsbD 31)) ∧
  (∀ (rs rt rd : RegIdx) (shamt : BitVec 5) (s : State),
    (s.reg rs).getLsbD 31 = (s.reg rt).getLsbD 31 →
    (s.reg rs + s.reg rt).getLsbD 31 ≠ (s.reg rs).getLsbD 31 →
      ReportsAndWritesNothing (.add rs rt rd shamt) s .arithmeticOverflow) ∧
  (∀ (rs rt : RegIdx) (imm : Imm16) (s : State),
    (s.reg rs).getLsbD 31 = (imm.signExtend 32).getLsbD 31 →
    (s.reg rs + imm.signExtend 32).getLsbD 31 ≠ (s.reg rs).getLsbD 31 →
      ReportsAndWritesNothing (.addi rs rt imm) s .arithmeticOverflow)

/-- ADDU, SUB and SUBU write the sum or difference modulo 2^32 and never report a fault, SUB included
(41_alu.md R83, R85, R86; 90_conflicts.md C1). -/
def Obligations.NonTrappingAddSubtract : Prop :=
  ∀ (rs rt rd : RegIdx) (shamt : BitVec 5) (s : State),
    WritesRegister (.addu rs rt rd shamt) s rd
      (BitVec.ofNat 32 ((s.reg rs).toNat + (s.reg rt).toNat)) ∧
    WritesRegister (.sub rs rt rd shamt) s rd
      (BitVec.ofInt 32 ((s.reg rs).toInt - (s.reg rt).toInt)) ∧
    WritesRegister (.subu rs rt rd shamt) s rd
      (BitVec.ofInt 32 ((s.reg rs).toNat - (s.reg rt).toNat))

/-- ADDIU writes the sum with the sign-extended immediate modulo 2^32 and never reports a fault (41_alu.md R84, the
spec's D5; log 12). -/
def Obligations.AddImmediateUnsignedWraps : Prop :=
  ∀ (rs rt : RegIdx) (imm : Imm16) (s : State),
    WritesRegister (.addiu rs rt imm) s rt (BitVec.ofInt 32 ((s.reg rs).toInt + imm.toInt))

/-- AND, OR, XOR and NOR write the bitwise result, bit by bit (41_alu.md R87, R89, R91, R93). -/
def Obligations.LogicalRegisterForms : Prop :=
  ∀ (rs rt rd : RegIdx) (shamt : BitVec 5) (s : State),
    WritesRegister (.and rs rt rd shamt) s rd (s.reg rs &&& s.reg rt) ∧
    WritesRegister (.or rs rt rd shamt) s rd (s.reg rs ||| s.reg rt) ∧
    WritesRegister (.xor rs rt rd shamt) s rd (s.reg rs ^^^ s.reg rt) ∧
    WritesRegister (.nor rs rt rd shamt) s rd (~~~(s.reg rs) &&& ~~~(s.reg rt))

/-- ANDI, ORI and XORI act on the low half with the immediate; the zero-extended upper half clears the result of ANDI
and leaves the source's in those of ORI and XORI (41_alu.md R88, R90, R92). -/
def Obligations.LogicalImmediateForms : Prop :=
  ∀ (rs rt : RegIdx) (imm : Imm16) (s : State),
    WritesRegister (.andi rs rt imm) s rt (0#16 ++ ((s.reg rs).extractLsb' 0 16 &&& imm)) ∧
    WritesRegister (.ori rs rt imm) s rt
      ((s.reg rs).extractLsb' 16 16 ++ ((s.reg rs).extractLsb' 0 16 ||| imm)) ∧
    WritesRegister (.xori rs rt imm) s rt
      ((s.reg rs).extractLsb' 16 16 ++ ((s.reg rs).extractLsb' 0 16 ^^^ imm))

/-- LUI writes the immediate shifted left by 16, whatever `rs` is (41_alu.md R102; 30_encoding.md R61 by D2). -/
def Obligations.LoadUpperImmediate : Prop :=
  ∀ (rs rt : RegIdx) (imm : Imm16) (s : State),
    WritesRegister (.lui rs rt imm) s rt (imm.setWidth 32 <<< 16)

/-- SLL multiplies by 2^shamt modulo 2^32, SRL divides the unsigned value and SRA the signed value by 2^shamt,
rounding down; `rs` is not read (41_alu.md R94 by D3, R95 to R97). -/
def Obligations.ShiftsMultiplyAndDivideByPowers : Prop :=
  ∀ (rs rt rd : RegIdx) (shamt : BitVec 5) (s : State),
    WritesRegister (.sll rs rt rd shamt) s rd (BitVec.ofNat 32 ((s.reg rt).toNat * 2 ^ shamt.toNat)) ∧
    WritesRegister (.srl rs rt rd shamt) s rd (BitVec.ofNat 32 ((s.reg rt).toNat / 2 ^ shamt.toNat)) ∧
    WritesRegister (.sra rs rt rd shamt) s rd
      (BitVec.ofInt 32 ((s.reg rt).toInt.fdiv (2 ^ shamt.toNat)))

/-- SLT and SLTI compare signed values, SLTU and SLTIU unsigned ones, with a sign-extended immediate; the result is 1
or 0 (41_alu.md R98 to R101, the spec's D4 and D5; log 12). -/
def Obligations.SetOnLessThanForms : Prop :=
  (∀ (rs rt rd : RegIdx) (shamt : BitVec 5) (s : State),
    WritesRegister (.slt rs rt rd shamt) s rd
      (if (s.reg rs).toInt < (s.reg rt).toInt then 1#32 else 0#32) ∧
    WritesRegister (.sltu rs rt rd shamt) s rd
      (if (s.reg rs).toNat < (s.reg rt).toNat then 1#32 else 0#32)) ∧
  (∀ (rs rt : RegIdx) (imm : Imm16) (s : State),
    WritesRegister (.slti rs rt imm) s rt (if (s.reg rs).toInt < imm.toInt then 1#32 else 0#32) ∧
    WritesRegister (.sltiu rs rt imm) s rt
      (if (s.reg rs).toNat < (imm.signExtend 32).toNat then 1#32 else 0#32))

/-! ## Multiply, divide, HI and LO -/

/-- MULT and MULTU leave in HI and LO the exact 64-bit product of the signed and of the unsigned operands
(42_muldiv.md R106, R107; the operands and signedness are D3 and D4; log 12). -/
def Obligations.MultiplyWritesTheExactProduct : Prop :=
  ∀ (rs rt rd : RegIdx) (shamt : BitVec 5) (s : State),
    (∃ hi lo : Word, (hi ++ lo : BitVec 64).toInt = (s.reg rs).toInt * (s.reg rt).toInt ∧
      WritesHiLo (.mult rs rt rd shamt) s hi lo) ∧
    (∃ hi lo : Word, (hi ++ lo : BitVec 64).toNat = (s.reg rs).toNat * (s.reg rt).toNat ∧
      WritesHiLo (.multu rs rt rd shamt) s hi lo)

/-- DIV truncates: with quotient q in LO and remainder r in HI, q * b + r = a, |r| < |b|, and r is 0 or has the sign
of a; the one quotient out of range, -2^31 / -1, gives LO = 0x80000000 and HI = 0 (42_muldiv.md R104, R108; the
spec's D6 and D7; log 12). -/
def Obligations.SignedDivisionTruncates : Prop :=
  ∀ (rs rt rd : RegIdx) (shamt : BitVec 5) (s : State), s.reg rt ≠ 0#32 →
    ∃ hi lo : Word, WritesHiLo (.div rs rt rd shamt) s hi lo ∧
      (if s.reg rs = 0x80000000#32 ∧ s.reg rt = 0xFFFFFFFF#32 then lo = 0x80000000#32 ∧ hi = 0#32
        else lo.toInt * (s.reg rt).toInt + hi.toInt = (s.reg rs).toInt ∧
          hi.toInt.natAbs < (s.reg rt).toInt.natAbs ∧
          (hi.toInt = 0 ∨ (hi.toInt < 0 ↔ (s.reg rs).toInt < 0)))

/-- DIVU leaves the quotient rounded down in LO and the remainder in HI (42_muldiv.md R104, R109; D3 and D4;
log 12). -/
def Obligations.UnsignedDivisionFloors : Prop :=
  ∀ (rs rt rd : RegIdx) (shamt : BitVec 5) (s : State), s.reg rt ≠ 0#32 →
    ∃ hi lo : Word, WritesHiLo (.divu rs rt rd shamt) s hi lo ∧
      lo.toNat * (s.reg rt).toNat + hi.toNat = (s.reg rs).toNat ∧ hi.toNat < (s.reg rt).toNat

/-- DIV and DIVU by zero report DivideByZero, leave HI, LO and every general register unchanged, and advance the pc
by 4 (42_muldiv.md R105). -/
def Obligations.DivisionByZeroKeepsHiAndLo : Prop :=
  ∀ (rs rt rd : RegIdx) (shamt : BitVec 5) (s : State), s.reg rt = 0#32 →
    ReportsAndWritesNothing (.div rs rt rd shamt) s .divideByZero ∧
    ReportsAndWritesNothing (.divu rs rt rd shamt) s .divideByZero

/-- MFHI and MFLO copy HI and LO to `rd` (42_muldiv.md R110, R111; the field is D3). -/
def Obligations.MoveFromHiAndLo : Prop :=
  ∀ (rs rt rd : RegIdx) (shamt : BitVec 5) (s : State),
    WritesRegister (.mfhi rs rt rd shamt) s rd s.hi ∧ WritesRegister (.mflo rs rt rd shamt) s rd s.lo

/-- MTHI and MTLO copy `rs` to HI or LO and leave the other unchanged (42_muldiv.md R112, R113; the field is D3). -/
def Obligations.MoveToHiAndLo : Prop :=
  ∀ (rs rt rd : RegIdx) (shamt : BitVec 5) (s : State),
    WritesHiLo (.mthi rs rt rd shamt) s (s.reg rs) s.lo ∧ WritesHiLo (.mtlo rs rt rd shamt) s s.hi (s.reg rs)

/-! ## Loads and stores -/

/-- A load at an aligned address inside a region writes the extended bytes to `rt` and nothing else: LB and LH
sign-extend, LBU and LHU zero-extend, LW takes the word (43_loadstore.md R114 to R120; which bytes is D16, the
alignment of halfwords D14; log 13). -/
def Obligations.LoadsInsideRegions : Prop :=
  ∀ (rs rt : RegIdx) (imm : Imm16) (s : State) (ea : Word), ea = s.reg rs + imm.signExtend 32 →
    inBounds s ea = true →
    WritesRegister (.lb rs rt imm) s rt ((s.mem.read ea.toNat).signExtend 32) ∧
    WritesRegister (.lbu rs rt imm) s rt ((s.mem.read ea.toNat).setWidth 32) ∧
    (ea.toNat % 2 = 0 →
      WritesRegister (.lh rs rt imm) s rt
        ((s.mem.read (ea.toNat + 1) ++ s.mem.read ea.toNat : BitVec 16).signExtend 32) ∧
      WritesRegister (.lhu rs rt imm) s rt
        ((s.mem.read (ea.toNat + 1) ++ s.mem.read ea.toNat : BitVec 16).setWidth 32)) ∧
    (ea.toNat % 4 = 0 →
      WritesRegister (.lw rs rt imm) s rt
        (s.mem.read (ea.toNat + 3) ++ s.mem.read (ea.toNat + 2) ++ s.mem.read (ea.toNat + 1) ++
          s.mem.read ea.toNat))

/-- A load at an aligned address outside every region receives 0 and reports OutOfBoundsMemoryAccess at the address
(43_loadstore.md R114, the spec's
D12; log 13). The record's pc, kind and width are 60_exceptions.md R144 by D19 (log 7). -/
def Obligations.LoadsOutsideRegionsReceiveZero : Prop :=
  ∀ (rs rt : RegIdx) (imm : Imm16) (s : State) (ea : Word), ea = s.reg rs + imm.signExtend 32 →
    inBounds s ea = false →
    LoadsZeroOutOfBounds (.lb rs rt imm) s rt ea .byte ∧
    LoadsZeroOutOfBounds (.lbu rs rt imm) s rt ea .byte ∧
    (ea.toNat % 2 = 0 →
      LoadsZeroOutOfBounds (.lh rs rt imm) s rt ea .half ∧
      LoadsZeroOutOfBounds (.lhu rs rt imm) s rt ea .half) ∧
    (ea.toNat % 4 = 0 → LoadsZeroOutOfBounds (.lw rs rt imm) s rt ea .word)

/-- A misaligned LH, LHU, LW, SH or SW reports UnalignedAccess at its address, in a region or not, and writes no
register and no byte (43_loadstore.md R114, 60_exceptions.md R147; the spec's D14 and D20; log 13). The record's pc,
kind and width are R144 by D19 (log 7). -/
def Obligations.MisalignedAccessWritesNothing : Prop :=
  ∀ (rs rt : RegIdx) (imm : Imm16) (s : State) (ea : Word), ea = s.reg rs + imm.signExtend 32 →
    (ea.toNat % 2 ≠ 0 →
      AccessRefused (.lh rs rt imm) s .unalignedAccess ea .load .half ∧
      AccessRefused (.lhu rs rt imm) s .unalignedAccess ea .load .half ∧
      AccessRefused (.sh rs rt imm) s .unalignedAccess ea .store .half) ∧
    (ea.toNat % 4 ≠ 0 →
      AccessRefused (.lw rs rt imm) s .unalignedAccess ea .load .word ∧
      AccessRefused (.sw rs rt imm) s .unalignedAccess ea .store .word)

/-- A store at an aligned address inside a region puts the low 1, 2 or 4 bytes of `rt` at its effective address,
lowest byte first, and changes no other byte and no register (43_loadstore.md R114, R115, R121 to R123; which bytes
is D16, the alignment of halfwords D14; log 13). -/
def Obligations.StoresInsideRegions : Prop :=
  ∀ (rs rt : RegIdx) (imm : Imm16) (s : State) (ea : Word), ea = s.reg rs + imm.signExtend 32 →
    s.mem.wf → inBounds s ea = true →
    StoresBytes (.sb rs rt imm) s ea 1 (s.reg rt) ∧
    (ea.toNat % 2 = 0 → StoresBytes (.sh rs rt imm) s ea 2 (s.reg rt)) ∧
    (ea.toNat % 4 = 0 → StoresBytes (.sw rs rt imm) s ea 4 (s.reg rt))

/-- A store at an aligned address outside every region writes nothing and reports OutOfBoundsMemoryAccess
(43_loadstore.md R114, 20_memory.md R40 and R44; the spec's D13; log 13). The record's pc, kind and width are
60_exceptions.md R144 by D19 (log 7). -/
def Obligations.StoresOutsideRegionsWriteNothing : Prop :=
  ∀ (rs rt : RegIdx) (imm : Imm16) (s : State) (ea : Word), ea = s.reg rs + imm.signExtend 32 →
    inBounds s ea = false →
    AccessRefused (.sb rs rt imm) s .outOfBoundsMemoryAccess ea .store .byte ∧
    (ea.toNat % 2 = 0 → AccessRefused (.sh rs rt imm) s .outOfBoundsMemoryAccess ea .store .half) ∧
    (ea.toNat % 4 = 0 → AccessRefused (.sw rs rt imm) s .outOfBoundsMemoryAccess ea .store .word)

/-- A load sees the last store to each of its bytes: after SB, SH or SW every load, LB, LH, LW, LBU or LHU, receives
the stored bytes where its own bytes are among them and the bytes that were there where they are not. So after SW of
`v`, LW at the same address gives `v`, LH and LHU at its halves `v[16j+15:16j]` and LB and LBU at its bytes
`v[8k+7:8k]`, extended (20_memory.md R43 derived there, R44 by D16, R48; log 13). -/
def Obligations.LoadsSeeTheLastStore : Prop :=
  ∀ (rs rt : RegIdx) (imm : Imm16) (s : State) (ea : Word), s.Inv → ea = s.reg rs + imm.signExtend 32 →
    inBounds s ea = true →
    (∃ t, exec (.sb rs rt imm) s = .next t ∧ LoadsSee t (byteAfterStore s ea 1 (s.reg rt))) ∧
    (ea.toNat % 2 = 0 →
      ∃ t, exec (.sh rs rt imm) s = .next t ∧ LoadsSee t (byteAfterStore s ea 2 (s.reg rt))) ∧
    (ea.toNat % 4 = 0 →
      ∃ t, exec (.sw rs rt imm) s = .next t ∧ LoadsSee t (byteAfterStore s ea 4 (s.reg rt)) ∧
        ∀ (base d : RegIdx) (off : Imm16),
          (t.reg base + off.signExtend 32 = ea → WritesRegister (.lw base d off) t d (s.reg rt)) ∧
          (∀ j : Nat, j < 2 → t.reg base + off.signExtend 32 = ea + BitVec.ofNat 32 (2 * j) →
            WritesRegister (.lh base d off) t d (((s.reg rt).extractLsb' (16 * j) 16).signExtend 32) ∧
            WritesRegister (.lhu base d off) t d (((s.reg rt).extractLsb' (16 * j) 16).setWidth 32)) ∧
          (∀ k : Nat, k < 4 → t.reg base + off.signExtend 32 = ea + BitVec.ofNat 32 k →
            WritesRegister (.lb base d off) t d (((s.reg rt).extractLsb' (8 * k) 8).signExtend 32) ∧
            WritesRegister (.lbu base d off) t d (((s.reg rt).extractLsb' (8 * k) 8).setWidth 32)))

/-- A store takes effect at the next fetch: after a cycle that executes SB, SH or SW the fetch at `pc + 4` brings the
word with the stored bytes in it, where they lie there, and SW to `pc + 4` itself makes it the stored word
(20_memory.md R50, derived there; the bytes are R44 by D16; log 13). -/
def Obligations.NextFetchSeesTheStore : Prop :=
  ∀ (rs rt : RegIdx) (imm : Imm16) (s : State) (ea : Word), s.Inv → ea = s.reg rs + imm.signExtend 32 →
    inBounds s ea = true → fetchable s (s.pc + 4#32) = true →
    (Fetches s (.sb rs rt imm) → NextFetchSees s (byteAfterStore s ea 1 (s.reg rt))) ∧
    (ea.toNat % 2 = 0 → Fetches s (.sh rs rt imm) → NextFetchSees s (byteAfterStore s ea 2 (s.reg rt))) ∧
    (ea.toNat % 4 = 0 → Fetches s (.sw rs rt imm) → NextFetchSees s (byteAfterStore s ea 4 (s.reg rt))) ∧
    (ea = s.pc + 4#32 → Fetches s (.sw rs rt imm) →
      ∃ t, step s = .next t ∧ fetch t = .word (s.reg rt) none)

/-! ## Jumps, branches, SYSCALL -/

/-- J and JAL go to `(pc + 4)[31:28] || target26 || 00`, a word-aligned address in the 256 MiB segment of `pc + 4`
(44_control.md R127); JAL also links `pc + 8` in register 31. -/
def Obligations.JumpsStayInTheSegment : Prop :=
  ∀ (target : Target26) (s : State),
    OnlyMovesPc (.j target) s ((s.pc + 4#32).extractLsb' 28 4 ++ target ++ 0b00#2) ∧
    JumpsAndLinks (.jal target) s ((s.pc + 4#32).extractLsb' 28 4 ++ target ++ 0b00#2) 31#5 (s.pc + 8#32) ∧
    (jumpTarget s.pc target).toNat % 4 = 0 ∧
    (jumpTarget s.pc target).toNat / 2 ^ 28 = (s.pc + 4#32).toNat / 2 ^ 28

/-- JR and JALR go to the old value of `rs` with no alignment check, `rd = rs` included; JALR links `pc + 8` in `rd`
(44_control.md R132, R133; that nothing is checked is D15, the fields D3). -/
def Obligations.RegisterJumpsTakeTheOldSource : Prop :=
  ∀ (rs rt rd : RegIdx) (shamt : BitVec 5) (s : State),
    OnlyMovesPc (.jr rs rt rd shamt) s (s.reg rs) ∧
    JumpsAndLinks (.jalr rs rt rd shamt) s (s.reg rs) rd (s.pc + 8#32)

/-- JAL and JALR write the link value `pc + 8`, and a return through the link register resumes there, so that the
instruction at `pc + 4` is skipped (44_control.md R125). -/
def Obligations.ReturnResumesAtPcPlusEight : Prop :=
  (∀ (target : Target26) (rt rd : RegIdx) (shamt : BitVec 5) (s : State),
    ∃ t u, exec (.jal target) s = .next t ∧ t.reg 31#5 = s.pc + 8#32 ∧
      exec (.jr 31#5 rt rd shamt) t = .next u ∧ u.pc = s.pc + 8#32) ∧
  (∀ (rs rt rd rt' rd' : RegIdx) (shamt shamt' : BitVec 5) (s : State), rd ≠ 0#5 →
    ∃ t u, exec (.jalr rs rt rd shamt) s = .next t ∧ t.reg rd = s.pc + 8#32 ∧
      exec (.jr rd rt' rd' shamt') t = .next u ∧ u.pc = s.pc + 8#32)

/-- The six branches go to `pc + 4 + (sext_32(imm16) << 2)` when their condition on signed values holds and to
`pc + 4` when it does not, and write nothing (44_control.md R126, R134 to R139; which relation a mnemonic names is
D4; log 12). -/
def Obligations.BranchesGoToTargetOrNext : Prop :=
  ∀ (rs rt : RegIdx) (imm : Imm16) (s : State) (target : Word),
    target = s.pc + 4#32 + BitVec.ofInt 32 (imm.toInt * 4) →
    OnlyMovesPc (.beq rs rt imm) s
      (if (s.reg rs).toInt = (s.reg rt).toInt then target else s.pc + 4#32) ∧
    OnlyMovesPc (.bne rs rt imm) s
      (if (s.reg rs).toInt = (s.reg rt).toInt then s.pc + 4#32 else target) ∧
    OnlyMovesPc (.blez rs rt imm) s (if (s.reg rs).toInt ≤ 0 then target else s.pc + 4#32) ∧
    OnlyMovesPc (.bgtz rs rt imm) s (if (s.reg rs).toInt ≤ 0 then s.pc + 4#32 else target) ∧
    OnlyMovesPc (.bltz rs imm) s (if (s.reg rs).toInt < 0 then target else s.pc + 4#32) ∧
    OnlyMovesPc (.bgez rs imm) s (if (s.reg rs).toInt < 0 then s.pc + 4#32 else target)

/-- A branch's target lies from `pc + 4 - 131072` to `pc + 4 + 131068` and is word-aligned whenever the pc is
(44_control.md R126; wrap-around is D17). -/
def Obligations.BranchTargetRangeAndAlignment : Prop :=
  ∀ (pc : Word) (imm : Imm16),
    (∃ d : Int, -131072 ≤ d ∧ d ≤ 131068 ∧ branchTarget pc imm = pc + 4#32 + BitVec.ofInt 32 d) ∧
    (pc.toNat % 4 = 0 → (branchTarget pc imm).toNat % 4 = 0)

/-- SYSCALL sets `running` to false and advances the pc by 4, whatever its bits 25:6 and whatever any register holds;
nothing else changes (45_system.md R140, the spec's D28; log 16). -/
def Obligations.SyscallHaltsUnconditionally : Prop :=
  ∀ (ignored : BitVec 20) (s : State),
    exec (.syscall ignored) s = .next { s with pc := s.pc + 4#32, running := false, report := none }

/-! ## The host interface -/

/-- `load_program` puts the words from `TEXT_BASE` up, writes nothing for a word that falls outside every region and
reports it, records the word count, and changes nothing but memory and that count (20_memory.md R51; the surplus words
are the spec's D24; log 16, and the record's fields log 7). The words are few enough not to wrap around the address
space. -/
def Obligations.LoadProgramPlacesTheWords : Prop :=
  ∀ (s : State) (words : List Word), s.Inv → 0x00400000 + 4 * words.length ≤ 2 ^ 32 →
    (∀ (k : Nat) (h : k < words.length),
      (inBounds s (0x00400000#32 + BitVec.ofNat 32 (4 * k)) = true →
        (loadProgram s words).1.mem.readWord (0x00400000 + 4 * k) = words[k]) ∧
      (inBounds s (0x00400000#32 + BitVec.ofNat 32 (4 * k)) = false →
        ∀ j : Nat, j < 4 →
          (loadProgram s words).1.mem.read (0x00400000 + 4 * k + j) = s.mem.read (0x00400000 + 4 * k + j))) ∧
    (loadProgram s words).2 =
      (List.range words.length).filterMap
        (fun k => hostWriteReport s (0x00400000#32 + BitVec.ofNat 32 (4 * k))) ∧
    (loadProgram s words).1 =
      { s with
        mem := (loadProgram s words).1.mem
        programWordCount := BitVec.ofNat 32 words.length } ∧
    (∀ b : Nat, b < 0x00400000 ∨ 0x00400000 + 4 * words.length ≤ b →
      (loadProgram s words).1.mem.read b = s.mem.read b)

/-- The host's memory access: in a region, a word written reads back and nothing is reported; outside, nothing is
written, 0 is read, and both are reported; a misaligned access is not performed (20_memory.md R53, with the spec's
D25; log 16). That a report to the host has neither pc nor word, kind load for a read and store for a write, and the
word's width is the model's choice (log 7). -/
def Obligations.HostMemoryRoundTrip : Prop :=
  ∀ (s : State) (a v : Word), s.Inv →
    (a.toNat % 4 = 0 → inBounds s a = true →
      (writeMemoryWord s a v).2 = none ∧ readMemoryWord (writeMemoryWord s a v).1 a = (some v, none)) ∧
    (a.toNat % 4 = 0 → inBounds s a = false →
      writeMemoryWord s a v =
        (s, some ⟨.outOfBoundsMemoryAccess, none, none, some ⟨a, .store, .word⟩⟩) ∧
      readMemoryWord s a =
        (some 0#32, some ⟨.outOfBoundsMemoryAccess, none, none, some ⟨a, .load, .word⟩⟩)) ∧
    (a.toNat % 4 ≠ 0 →
      writeMemoryWord s a v = (s, some ⟨.unalignedAccess, none, none, some ⟨a, .store, .word⟩⟩) ∧
      readMemoryWord s a = (none, some ⟨.unalignedAccess, none, none, some ⟨a, .load, .word⟩⟩))

/-- The host's register access: a write of registers 1..31 reads back and leaves the others, a write of register 0 is
discarded, and an index outside 0..31 is refused (70_reset_and_hazards.md R166, the spec's D18; log 16). -/
def Obligations.HostRegisterAccess : Prop :=
  ∀ (s : State) (i : Nat) (v : Word),
    (i < 32 → ∃ t, writeRegister s i v = .next t ∧
      readRegister t i = .ok (if i = 0 then 0#32 else v) ∧
      (∀ j, j ≠ i → readRegister t j = readRegister s j) ∧
      t = { s with regs := t.regs }) ∧
    (32 ≤ i → writeRegister s i v = .refused (.registerIndexOutOfRange i) ∧
      readRegister s i = .error (.registerIndexOutOfRange i))

/-- The host's step(n) runs at most n cycles, exactly n while the core keeps running, each counted once and each with
at most one report, and ends where n single steps end (70_reset_and_hazards.md R164, R170, 60_exceptions.md R147; the
spec's D20 and D30). -/
def Obligations.HostStepCountsItsCycles : Prop :=
  ∀ (s : State) (n : Nat), regionsAdmissible s.regions = true →
    (hostStep n s).1 = Sys2Proof.core.run n s ∧
    ∃ (t : State) (k : Nat), (hostStep n s).1 = .next t ∧ k ≤ n ∧ (t.running = true → k = n) ∧
      t.instructionCount = s.instructionCount + BitVec.ofNat 32 k ∧ (hostStep n s).2.length ≤ k

/-- The word placed by `withFetchWord` is the one the next cycle fetches, from any state with a canonical memory and
an admissible region table (the model's stand-in for a program load; log 2). -/
def Obligations.PlacedWordIsFetched : Prop :=
  ∀ (s : State) (nbits w : Nat), s.Inv →
    fetch (s.withFetchWord nbits w) = .word (tableWord nbits w) none ∧
      (s.withFetchWord nbits w).running = true ∧
      (fetchable s s.pc = true → (s.withFetchWord nbits w).pc = s.pc)
end

