-- ==== Sys2Proof/Laws/Decode.lean ====
section
/-! SUPPORT. The bits, the fields and the selector bits of an assembled word, once per format (30_encoding.md R54,
R55, R61). -/

namespace Sys2Proof

/-! ## The bits of each format -/

theorem getLsbD_rWord (rs rt rd : RegIdx) (shamt : BitVec 5) (funct : BitVec 6) (i : Nat) :
    (rWord rs rt rd shamt funct).getLsbD i =
      if i < 6 then funct.getLsbD i else if i < 11 then shamt.getLsbD (i - 6)
      else if i < 16 then rd.getLsbD (i - 11) else if i < 21 then rt.getLsbD (i - 16)
      else if i < 26 then rs.getLsbD (i - 21) else false := by
  show BitVec.getLsbD (w := 6 + 5 + 5 + 5 + 5 + 6) (0b000000#6 ++ rs ++ rt ++ rd ++ shamt ++ funct) i = _
  rw [BitVec.getLsbD_append, BitVec.getLsbD_append, BitVec.getLsbD_append, BitVec.getLsbD_append, BitVec.getLsbD_append]
  simp only [Nat.sub_sub, Nat.reduceAdd, BitVec.getLsbD_zero,
    show i - 6 < 5 ↔ i < 11 by omega, show i - 11 < 5 ↔ i < 16 by omega,
    show i - 16 < 5 ↔ i < 21 by omega, show i - 21 < 5 ↔ i < 26 by omega]

theorem getLsbD_iWord (opcode : BitVec 6) (rs rt : RegIdx) (imm : Imm16) (i : Nat) :
    (iWord opcode rs rt imm).getLsbD i =
      if i < 16 then imm.getLsbD i else if i < 21 then rt.getLsbD (i - 16)
      else if i < 26 then rs.getLsbD (i - 21) else opcode.getLsbD (i - 26) := by
  show BitVec.getLsbD (w := 6 + 5 + 5 + 16) (opcode ++ rs ++ rt ++ imm) i = _
  rw [BitVec.getLsbD_append, BitVec.getLsbD_append, BitVec.getLsbD_append]
  simp only [Nat.sub_sub, Nat.reduceAdd,
    show i - 16 < 5 ↔ i < 21 by omega, show i - 21 < 5 ↔ i < 26 by omega]

theorem getLsbD_jWord (opcode : BitVec 6) (target : Target26) (i : Nat) :
    (jWord opcode target).getLsbD i = if i < 26 then target.getLsbD i else opcode.getLsbD (i - 26) := by
  show BitVec.getLsbD (w := 6 + 26) (opcode ++ target) i = _
  rw [BitVec.getLsbD_append]

theorem getLsbD_syscallWord (ignored : BitVec 20) (i : Nat) :
    (syscallWord ignored).getLsbD i =
      if i < 6 then (0b001100#6).getLsbD i else if i < 26 then ignored.getLsbD (i - 6) else false := by
  show BitVec.getLsbD (w := 6 + 20 + 6) (0b000000#6 ++ ignored ++ 0b001100#6) i = _
  rw [BitVec.getLsbD_append, BitVec.getLsbD_append]
  simp only [Nat.sub_sub, Nat.reduceAdd, BitVec.getLsbD_zero,
    show i - 6 < 20 ↔ i < 26 by omega]

theorem getLsbD_ignoredBits (f : Fields) (i : Nat) :
    f.ignoredBits.getLsbD i =
      if i < 5 then f.shamt.getLsbD i else if i < 10 then f.rd.getLsbD (i - 5)
      else if i < 15 then f.rt.getLsbD (i - 10) else f.rs.getLsbD (i - 15) := by
  show BitVec.getLsbD (w := 5 + 5 + 5 + 5) (f.rs ++ f.rt ++ f.rd ++ f.shamt) i = _
  rw [BitVec.getLsbD_append, BitVec.getLsbD_append, BitVec.getLsbD_append]
  simp only [Nat.sub_sub, Nat.reduceAdd,
    show i - 5 < 5 ↔ i < 10 by omega, show i - 10 < 5 ↔ i < 15 by omega]

/-! ## The fields of an assembled word -/

/-- The fields of an R-type word. -/
theorem fields_rWord (rs rt rd : RegIdx) (shamt : BitVec 5) (funct : BitVec 6) :
    (fields (rWord rs rt rd shamt funct)).opcode = 0b000000#6 ∧ (fields (rWord rs rt rd shamt funct)).rs = rs ∧
      (fields (rWord rs rt rd shamt funct)).rt = rt ∧ (fields (rWord rs rt rd shamt funct)).rd = rd ∧
      (fields (rWord rs rt rd shamt funct)).shamt = shamt ∧ (fields (rWord rs rt rd shamt funct)).funct = funct := by
  refine ⟨?_, ?_, ?_, ?_, ?_, ?_⟩ <;>
    (apply BitVec.eq_of_getLsbD_eq; intro i hi
     simp only [fields, BitVec.getLsbD_extractLsb', getLsbD_rWord]
     interval_cases i <;> simp)

/-- The fields of an I-type word. -/
theorem fields_iWord (opcode : BitVec 6) (rs rt : RegIdx) (imm : Imm16) :
    (fields (iWord opcode rs rt imm)).opcode = opcode ∧ (fields (iWord opcode rs rt imm)).rs = rs ∧
      (fields (iWord opcode rs rt imm)).rt = rt ∧ (fields (iWord opcode rs rt imm)).imm16 = imm := by
  refine ⟨?_, ?_, ?_, ?_⟩ <;>
    (apply BitVec.eq_of_getLsbD_eq; intro i hi
     simp only [fields, BitVec.getLsbD_extractLsb', getLsbD_iWord]
     interval_cases i <;> simp)

/-- The fields of a J-type word. -/
theorem fields_jWord (opcode : BitVec 6) (target : Target26) :
    (fields (jWord opcode target)).opcode = opcode ∧ (fields (jWord opcode target)).target26 = target := by
  refine ⟨?_, ?_⟩ <;>
    (apply BitVec.eq_of_getLsbD_eq; intro i hi
     simp only [fields, BitVec.getLsbD_extractLsb', getLsbD_jWord]
     interval_cases i <;> simp)

/-- The fields of SYSCALL's word that select it, and its ignored bits. -/
theorem fields_syscallWord (ignored : BitVec 20) :
    (fields (syscallWord ignored)).opcode = 0b000000#6 ∧ (fields (syscallWord ignored)).funct = 0b001100#6 ∧
      (fields (syscallWord ignored)).ignoredBits = ignored := by
  refine ⟨?_, ?_, ?_⟩ <;>
    (apply BitVec.eq_of_getLsbD_eq; intro i hi
     simp only [getLsbD_ignoredBits, fields, BitVec.getLsbD_extractLsb', getLsbD_syscallWord]
     interval_cases i <;> simp)

/-! ## A word is its fields put together again -/

theorem rWord_fields {w : Word} (h : (fields w).opcode = 0b000000#6) :
    rWord (fields w).rs (fields w).rt (fields w).rd (fields w).shamt (fields w).funct = w := by
  apply BitVec.eq_of_getLsbD_eq
  intro i hi
  simp only [getLsbD_rWord]
  by_cases hi6 : i < 26
  · simp only [fields, BitVec.getLsbD_extractLsb']
    interval_cases i <;> simp
  · have top := congrArg (fun v : BitVec 6 => v.getLsbD (i - 26)) h
    simp only [fields, BitVec.getLsbD_extractLsb', BitVec.getLsbD_zero, show i - 26 < 6 by omega,
      show 26 + (i - 26) = i by omega, decide_true, Bool.true_and] at top
    simp only [show ¬ i < 6 by omega, show ¬ i < 11 by omega, show ¬ i < 16 by omega,
      show ¬ i < 21 by omega, hi6, if_false, top]

theorem iWord_fields (w : Word) :
    iWord (fields w).opcode (fields w).rs (fields w).rt (fields w).imm16 = w := by
  apply BitVec.eq_of_getLsbD_eq
  intro i hi
  simp only [getLsbD_iWord, fields, BitVec.getLsbD_extractLsb']
  interval_cases i <;> simp

theorem jWord_fields (w : Word) : jWord (fields w).opcode (fields w).target26 = w := by
  apply BitVec.eq_of_getLsbD_eq
  intro i hi
  simp only [getLsbD_jWord, fields, BitVec.getLsbD_extractLsb']
  interval_cases i <;> simp

/-- SYSCALL's word is the R-type word of its four ignored fields. -/
theorem syscallWord_ignoredBits (f : Fields) :
    syscallWord f.ignoredBits = rWord f.rs f.rt f.rd f.shamt 0b001100#6 := by
  apply BitVec.eq_of_getLsbD_eq
  intro i hi
  simp only [getLsbD_syscallWord, getLsbD_rWord, getLsbD_ignoredBits]
  interval_cases i <;> simp

/-! ## The selector bits (R61) -/

theorem rWord_selector (rs rt rd : RegIdx) (shamt : BitVec 5) (funct : BitVec 6) :
    rWord rs rt rd shamt funct &&& 0xFC00003F#32 = funct.setWidth 32 := by
  apply BitVec.eq_of_getLsbD_eq
  intro i hi
  simp only [BitVec.getLsbD_and, getLsbD_rWord]
  interval_cases i <;> simp

theorem iWord_selector (opcode : BitVec 6) (rs rt : RegIdx) (imm : Imm16) :
    iWord opcode rs rt imm &&& 0xFC000000#32 = jWord opcode 0#26 := by
  apply BitVec.eq_of_getLsbD_eq
  intro i hi
  simp only [BitVec.getLsbD_and, getLsbD_iWord, getLsbD_jWord]
  interval_cases i <;> simp

theorem iWord_subSelector (opcode : BitVec 6) (rs rt : RegIdx) (imm : Imm16) :
    iWord opcode rs rt imm &&& 0xFC1F0000#32 = iWord opcode 0#5 rt 0#16 := by
  apply BitVec.eq_of_getLsbD_eq
  intro i hi
  simp only [BitVec.getLsbD_and, getLsbD_iWord]
  interval_cases i <;> simp

theorem jWord_selector (opcode : BitVec 6) (target : Target26) :
    jWord opcode target &&& 0xFC000000#32 = jWord opcode 0#26 := by
  apply BitVec.eq_of_getLsbD_eq
  intro i hi
  simp only [BitVec.getLsbD_and, getLsbD_jWord]
  interval_cases i <;> simp

theorem syscallWord_selector (ignored : BitVec 20) :
    syscallWord ignored &&& 0xFC00003F#32 = 0x0000000C#32 := by
  apply BitVec.eq_of_getLsbD_eq
  intro i hi
  simp only [BitVec.getLsbD_and, getLsbD_syscallWord]
  interval_cases i <;> simp

end Sys2Proof
end

