-- ==== Sys2Proof/Laws/State.lean ====
section
/-! SUPPORT. One lemma per field per update of the state, and what the shared updates (register write, memory write,
template, commit, fault report) do to each field. No later proof unfolds a record update. -/

namespace Sys2Proof.Machine.State

variable (s : State)

/-! ### setPc -/

@[simp] theorem setPc_pc (v : Word) : (s.setPc v).pc = v := rfl
@[simp] theorem setPc_regs (v : Word) : (s.setPc v).regs = s.regs := rfl
@[simp] theorem setPc_hi (v : Word) : (s.setPc v).hi = s.hi := rfl
@[simp] theorem setPc_lo (v : Word) : (s.setPc v).lo = s.lo := rfl
@[simp] theorem setPc_mem (v : Word) : (s.setPc v).mem = s.mem := rfl
@[simp] theorem setPc_running (v : Word) : (s.setPc v).running = s.running := rfl
@[simp] theorem setPc_instructionCount (v : Word) : (s.setPc v).instructionCount = s.instructionCount := rfl
@[simp] theorem setPc_programWordCount (v : Word) : (s.setPc v).programWordCount = s.programWordCount := rfl
@[simp] theorem setPc_regions (v : Word) : (s.setPc v).regions = s.regions := rfl
@[simp] theorem setPc_program (v : Word) : (s.setPc v).program = s.program := rfl
@[simp] theorem setPc_report (v : Word) : (s.setPc v).report = s.report := rfl

/-! ### setRegs -/

@[simp] theorem setRegs_pc (v : Vector Word 32) : (s.setRegs v).pc = s.pc := rfl
@[simp] theorem setRegs_regs (v : Vector Word 32) : (s.setRegs v).regs = v := rfl
@[simp] theorem setRegs_hi (v : Vector Word 32) : (s.setRegs v).hi = s.hi := rfl
@[simp] theorem setRegs_lo (v : Vector Word 32) : (s.setRegs v).lo = s.lo := rfl
@[simp] theorem setRegs_mem (v : Vector Word 32) : (s.setRegs v).mem = s.mem := rfl
@[simp] theorem setRegs_running (v : Vector Word 32) : (s.setRegs v).running = s.running := rfl
@[simp] theorem setRegs_instructionCount (v : Vector Word 32) : (s.setRegs v).instructionCount = s.instructionCount := rfl
@[simp] theorem setRegs_programWordCount (v : Vector Word 32) : (s.setRegs v).programWordCount = s.programWordCount := rfl
@[simp] theorem setRegs_regions (v : Vector Word 32) : (s.setRegs v).regions = s.regions := rfl
@[simp] theorem setRegs_program (v : Vector Word 32) : (s.setRegs v).program = s.program := rfl
@[simp] theorem setRegs_report (v : Vector Word 32) : (s.setRegs v).report = s.report := rfl

/-! ### setHi -/

@[simp] theorem setHi_pc (v : Word) : (s.setHi v).pc = s.pc := rfl
@[simp] theorem setHi_regs (v : Word) : (s.setHi v).regs = s.regs := rfl
@[simp] theorem setHi_hi (v : Word) : (s.setHi v).hi = v := rfl
@[simp] theorem setHi_lo (v : Word) : (s.setHi v).lo = s.lo := rfl
@[simp] theorem setHi_mem (v : Word) : (s.setHi v).mem = s.mem := rfl
@[simp] theorem setHi_running (v : Word) : (s.setHi v).running = s.running := rfl
@[simp] theorem setHi_instructionCount (v : Word) : (s.setHi v).instructionCount = s.instructionCount := rfl
@[simp] theorem setHi_programWordCount (v : Word) : (s.setHi v).programWordCount = s.programWordCount := rfl
@[simp] theorem setHi_regions (v : Word) : (s.setHi v).regions = s.regions := rfl
@[simp] theorem setHi_program (v : Word) : (s.setHi v).program = s.program := rfl
@[simp] theorem setHi_report (v : Word) : (s.setHi v).report = s.report := rfl

/-! ### setLo -/

@[simp] theorem setLo_pc (v : Word) : (s.setLo v).pc = s.pc := rfl
@[simp] theorem setLo_regs (v : Word) : (s.setLo v).regs = s.regs := rfl
@[simp] theorem setLo_hi (v : Word) : (s.setLo v).hi = s.hi := rfl
@[simp] theorem setLo_lo (v : Word) : (s.setLo v).lo = v := rfl
@[simp] theorem setLo_mem (v : Word) : (s.setLo v).mem = s.mem := rfl
@[simp] theorem setLo_running (v : Word) : (s.setLo v).running = s.running := rfl
@[simp] theorem setLo_instructionCount (v : Word) : (s.setLo v).instructionCount = s.instructionCount := rfl
@[simp] theorem setLo_programWordCount (v : Word) : (s.setLo v).programWordCount = s.programWordCount := rfl
@[simp] theorem setLo_regions (v : Word) : (s.setLo v).regions = s.regions := rfl
@[simp] theorem setLo_program (v : Word) : (s.setLo v).program = s.program := rfl
@[simp] theorem setLo_report (v : Word) : (s.setLo v).report = s.report := rfl

/-! ### setMem -/

@[simp] theorem setMem_pc (v : Memory) : (s.setMem v).pc = s.pc := rfl
@[simp] theorem setMem_regs (v : Memory) : (s.setMem v).regs = s.regs := rfl
@[simp] theorem setMem_hi (v : Memory) : (s.setMem v).hi = s.hi := rfl
@[simp] theorem setMem_lo (v : Memory) : (s.setMem v).lo = s.lo := rfl
@[simp] theorem setMem_mem (v : Memory) : (s.setMem v).mem = v := rfl
@[simp] theorem setMem_running (v : Memory) : (s.setMem v).running = s.running := rfl
@[simp] theorem setMem_instructionCount (v : Memory) : (s.setMem v).instructionCount = s.instructionCount := rfl
@[simp] theorem setMem_programWordCount (v : Memory) : (s.setMem v).programWordCount = s.programWordCount := rfl
@[simp] theorem setMem_regions (v : Memory) : (s.setMem v).regions = s.regions := rfl
@[simp] theorem setMem_program (v : Memory) : (s.setMem v).program = s.program := rfl
@[simp] theorem setMem_report (v : Memory) : (s.setMem v).report = s.report := rfl

/-! ### setRunning -/

@[simp] theorem setRunning_pc (v : Bool) : (s.setRunning v).pc = s.pc := rfl
@[simp] theorem setRunning_regs (v : Bool) : (s.setRunning v).regs = s.regs := rfl
@[simp] theorem setRunning_hi (v : Bool) : (s.setRunning v).hi = s.hi := rfl
@[simp] theorem setRunning_lo (v : Bool) : (s.setRunning v).lo = s.lo := rfl
@[simp] theorem setRunning_mem (v : Bool) : (s.setRunning v).mem = s.mem := rfl
@[simp] theorem setRunning_running (v : Bool) : (s.setRunning v).running = v := rfl
@[simp] theorem setRunning_instructionCount (v : Bool) : (s.setRunning v).instructionCount = s.instructionCount := rfl
@[simp] theorem setRunning_programWordCount (v : Bool) : (s.setRunning v).programWordCount = s.programWordCount := rfl
@[simp] theorem setRunning_regions (v : Bool) : (s.setRunning v).regions = s.regions := rfl
@[simp] theorem setRunning_program (v : Bool) : (s.setRunning v).program = s.program := rfl
@[simp] theorem setRunning_report (v : Bool) : (s.setRunning v).report = s.report := rfl

/-! ### setInstructionCount -/

@[simp] theorem setInstructionCount_pc (v : Word) : (s.setInstructionCount v).pc = s.pc := rfl
@[simp] theorem setInstructionCount_regs (v : Word) : (s.setInstructionCount v).regs = s.regs := rfl
@[simp] theorem setInstructionCount_hi (v : Word) : (s.setInstructionCount v).hi = s.hi := rfl
@[simp] theorem setInstructionCount_lo (v : Word) : (s.setInstructionCount v).lo = s.lo := rfl
@[simp] theorem setInstructionCount_mem (v : Word) : (s.setInstructionCount v).mem = s.mem := rfl
@[simp] theorem setInstructionCount_running (v : Word) : (s.setInstructionCount v).running = s.running := rfl
@[simp] theorem setInstructionCount_instructionCount (v : Word) : (s.setInstructionCount v).instructionCount = v := rfl
@[simp] theorem setInstructionCount_programWordCount (v : Word) : (s.setInstructionCount v).programWordCount = s.programWordCount := rfl
@[simp] theorem setInstructionCount_regions (v : Word) : (s.setInstructionCount v).regions = s.regions := rfl
@[simp] theorem setInstructionCount_program (v : Word) : (s.setInstructionCount v).program = s.program := rfl
@[simp] theorem setInstructionCount_report (v : Word) : (s.setInstructionCount v).report = s.report := rfl

/-! ### setProgramWordCount -/

@[simp] theorem setProgramWordCount_pc (v : Word) : (s.setProgramWordCount v).pc = s.pc := rfl
@[simp] theorem setProgramWordCount_regs (v : Word) : (s.setProgramWordCount v).regs = s.regs := rfl
@[simp] theorem setProgramWordCount_hi (v : Word) : (s.setProgramWordCount v).hi = s.hi := rfl
@[simp] theorem setProgramWordCount_lo (v : Word) : (s.setProgramWordCount v).lo = s.lo := rfl
@[simp] theorem setProgramWordCount_mem (v : Word) : (s.setProgramWordCount v).mem = s.mem := rfl
@[simp] theorem setProgramWordCount_running (v : Word) : (s.setProgramWordCount v).running = s.running := rfl
@[simp] theorem setProgramWordCount_instructionCount (v : Word) : (s.setProgramWordCount v).instructionCount = s.instructionCount := rfl
@[simp] theorem setProgramWordCount_programWordCount (v : Word) : (s.setProgramWordCount v).programWordCount = v := rfl
@[simp] theorem setProgramWordCount_regions (v : Word) : (s.setProgramWordCount v).regions = s.regions := rfl
@[simp] theorem setProgramWordCount_program (v : Word) : (s.setProgramWordCount v).program = s.program := rfl
@[simp] theorem setProgramWordCount_report (v : Word) : (s.setProgramWordCount v).report = s.report := rfl

/-! ### setReport -/

@[simp] theorem setReport_pc (v : Option FaultReport) : (s.setReport v).pc = s.pc := rfl
@[simp] theorem setReport_regs (v : Option FaultReport) : (s.setReport v).regs = s.regs := rfl
@[simp] theorem setReport_hi (v : Option FaultReport) : (s.setReport v).hi = s.hi := rfl
@[simp] theorem setReport_lo (v : Option FaultReport) : (s.setReport v).lo = s.lo := rfl
@[simp] theorem setReport_mem (v : Option FaultReport) : (s.setReport v).mem = s.mem := rfl
@[simp] theorem setReport_running (v : Option FaultReport) : (s.setReport v).running = s.running := rfl
@[simp] theorem setReport_instructionCount (v : Option FaultReport) : (s.setReport v).instructionCount = s.instructionCount := rfl
@[simp] theorem setReport_programWordCount (v : Option FaultReport) : (s.setReport v).programWordCount = s.programWordCount := rfl
@[simp] theorem setReport_regions (v : Option FaultReport) : (s.setReport v).regions = s.regions := rfl
@[simp] theorem setReport_program (v : Option FaultReport) : (s.setReport v).program = s.program := rfl
@[simp] theorem setReport_report (v : Option FaultReport) : (s.setReport v).report = v := rfl

/-! ### setReg: only the register storage, and not for register 0 (R18) -/

theorem setReg_zero (v : Word) : s.setReg 0#5 v = s := rfl

@[simp] theorem setReg_pc (i : RegIdx) (v : Word) : (s.setReg i v).pc = s.pc := by
  unfold setReg; split <;> rfl
@[simp] theorem setReg_hi (i : RegIdx) (v : Word) : (s.setReg i v).hi = s.hi := by
  unfold setReg; split <;> rfl
@[simp] theorem setReg_lo (i : RegIdx) (v : Word) : (s.setReg i v).lo = s.lo := by
  unfold setReg; split <;> rfl
@[simp] theorem setReg_mem (i : RegIdx) (v : Word) : (s.setReg i v).mem = s.mem := by
  unfold setReg; split <;> rfl
@[simp] theorem setReg_running (i : RegIdx) (v : Word) : (s.setReg i v).running = s.running := by
  unfold setReg; split <;> rfl
@[simp] theorem setReg_instructionCount (i : RegIdx) (v : Word) : (s.setReg i v).instructionCount = s.instructionCount := by
  unfold setReg; split <;> rfl
@[simp] theorem setReg_programWordCount (i : RegIdx) (v : Word) : (s.setReg i v).programWordCount = s.programWordCount := by
  unfold setReg; split <;> rfl
@[simp] theorem setReg_regions (i : RegIdx) (v : Word) : (s.setReg i v).regions = s.regions := by
  unfold setReg; split <;> rfl
@[simp] theorem setReg_program (i : RegIdx) (v : Word) : (s.setReg i v).program = s.program := by
  unfold setReg; split <;> rfl
@[simp] theorem setReg_report (i : RegIdx) (v : Word) : (s.setReg i v).report = s.report := by
  unfold setReg; split <;> rfl

/-! ### reg: the hard-wired zero, and reading after an update -/

@[simp] theorem reg_zero : s.reg 0#5 = 0#32 := rfl

/-- A read sees the register storage only. -/
theorem reg_congr {s t : State} (h : t.regs = s.regs) (i : RegIdx) : t.reg i = s.reg i := by
  unfold reg; simp only [h]

@[simp] theorem reg_setPc (v : Word) (i : RegIdx) : (s.setPc v).reg i = s.reg i := rfl
@[simp] theorem reg_setHi (v : Word) (i : RegIdx) : (s.setHi v).reg i = s.reg i := rfl
@[simp] theorem reg_setLo (v : Word) (i : RegIdx) : (s.setLo v).reg i = s.reg i := rfl
@[simp] theorem reg_setMem (v : Memory) (i : RegIdx) : (s.setMem v).reg i = s.reg i := rfl
@[simp] theorem reg_setRunning (v : Bool) (i : RegIdx) : (s.setRunning v).reg i = s.reg i := rfl
@[simp] theorem reg_setInstructionCount (v : Word) (i : RegIdx) : (s.setInstructionCount v).reg i = s.reg i := rfl
@[simp] theorem reg_setProgramWordCount (v : Word) (i : RegIdx) : (s.setProgramWordCount v).reg i = s.reg i := rfl
@[simp] theorem reg_setReport (v : Option FaultReport) (i : RegIdx) : (s.setReport v).reg i = s.reg i := rfl

/-- Reading any register after writing one: a write to register 0 is discarded (R18). -/
theorem reg_setReg (i j : RegIdx) (v : Word) :
    (s.setReg i v).reg j = if j = i ∧ i ≠ 0#5 then v else s.reg j := by
  unfold setReg reg
  by_cases hi : i = 0#5
  · simp [hi]
  · by_cases hj : j = 0#5
    · subst hj
      have : ¬ (0#5 = i) := fun h => hi h.symm
      simp [this]
    · have key : i.toNat = j.toNat ↔ j = i := by
        rw [BitVec.toNat_inj]; exact eq_comm
      simp only [hi, hj, if_false, setRegs_regs, Vector.getElem_set, key, ne_eq, not_false_eq_true, and_true]

@[simp] theorem reg_setReg_self (i : RegIdx) (v : Word) :
    (s.setReg i v).reg i = if i = 0#5 then 0#32 else v := by
  rw [reg_setReg]
  by_cases hi : i = 0#5 <;> simp [hi]

theorem reg_setReg_of_ne {i j : RegIdx} (h : j ≠ i) (v : Word) : (s.setReg i v).reg j = s.reg j := by
  rw [reg_setReg]; simp [h]

/-- The storage of register 0 is never written (R75). -/
@[simp] theorem setReg_storage_zero (i : RegIdx) (v : Word) : (s.setReg i v).regs[0] = s.regs[0] := by
  unfold setReg
  split
  · rfl
  · next hi =>
    have : i.toNat ≠ 0 := fun h => hi (BitVec.eq_of_toNat_eq h)
    simp [this]

end Sys2Proof.Machine.State

namespace Sys2Proof.Machine

variable (s : State)

/-! ### template (R72) -/

@[simp] theorem template_pc : (template s).pc = s.pc + 4#32 := rfl
@[simp] theorem template_report : (template s).report = none := rfl
@[simp] theorem template_regs : (template s).regs = s.regs := rfl
@[simp] theorem template_hi : (template s).hi = s.hi := rfl
@[simp] theorem template_lo : (template s).lo = s.lo := rfl
@[simp] theorem template_mem : (template s).mem = s.mem := rfl
@[simp] theorem template_running : (template s).running = s.running := rfl
@[simp] theorem template_instructionCount : (template s).instructionCount = s.instructionCount := rfl
@[simp] theorem template_programWordCount : (template s).programWordCount = s.programWordCount := rfl
@[simp] theorem template_regions : (template s).regions = s.regions := rfl
@[simp] theorem template_program : (template s).program = s.program := rfl
@[simp] theorem template_reg (i : RegIdx) : (template s).reg i = s.reg i := rfl

/-! ### commit (R76) -/

@[simp] theorem commit_instructionCount : (commit s).instructionCount = s.instructionCount + 1#32 := rfl
@[simp] theorem commit_pc : (commit s).pc = s.pc := rfl
@[simp] theorem commit_regs : (commit s).regs = s.regs := rfl
@[simp] theorem commit_hi : (commit s).hi = s.hi := rfl
@[simp] theorem commit_lo : (commit s).lo = s.lo := rfl
@[simp] theorem commit_mem : (commit s).mem = s.mem := rfl
@[simp] theorem commit_running : (commit s).running = s.running := rfl
@[simp] theorem commit_programWordCount : (commit s).programWordCount = s.programWordCount := rfl
@[simp] theorem commit_regions : (commit s).regions = s.regions := rfl
@[simp] theorem commit_program : (commit s).program = s.program := rfl
@[simp] theorem commit_report : (commit s).report = s.report := rfl
@[simp] theorem commit_reg (i : RegIdx) : (commit s).reg i = s.reg i := rfl

/-! ### reportFault (R12, R149): nothing but the report -/

@[simp] theorem reportFault_report (r : FaultReport) : (reportFault s r).report = some r := rfl
@[simp] theorem reportFault_pc (r : FaultReport) : (reportFault s r).pc = s.pc := rfl
@[simp] theorem reportFault_regs (r : FaultReport) : (reportFault s r).regs = s.regs := rfl
@[simp] theorem reportFault_hi (r : FaultReport) : (reportFault s r).hi = s.hi := rfl
@[simp] theorem reportFault_lo (r : FaultReport) : (reportFault s r).lo = s.lo := rfl
@[simp] theorem reportFault_mem (r : FaultReport) : (reportFault s r).mem = s.mem := rfl
@[simp] theorem reportFault_running (r : FaultReport) : (reportFault s r).running = s.running := rfl
@[simp] theorem reportFault_instructionCount (r : FaultReport) : (reportFault s r).instructionCount = s.instructionCount := rfl
@[simp] theorem reportFault_programWordCount (r : FaultReport) : (reportFault s r).programWordCount = s.programWordCount := rfl
@[simp] theorem reportFault_regions (r : FaultReport) : (reportFault s r).regions = s.regions := rfl
@[simp] theorem reportFault_program (r : FaultReport) : (reportFault s r).program = s.program := rfl
@[simp] theorem reportFault_reg (r : FaultReport) (i : RegIdx) : (reportFault s r).reg i = s.reg i := rfl

/-! ### memWrite (R44): nothing but memory -/

@[simp] theorem memWrite_pc (a : Word) (w : Width) (v : Word) : (memWrite s a w v).pc = s.pc := by
  unfold memWrite; split <;> rfl
@[simp] theorem memWrite_regs (a : Word) (w : Width) (v : Word) : (memWrite s a w v).regs = s.regs := by
  unfold memWrite; split <;> rfl
@[simp] theorem memWrite_hi (a : Word) (w : Width) (v : Word) : (memWrite s a w v).hi = s.hi := by
  unfold memWrite; split <;> rfl
@[simp] theorem memWrite_lo (a : Word) (w : Width) (v : Word) : (memWrite s a w v).lo = s.lo := by
  unfold memWrite; split <;> rfl
@[simp] theorem memWrite_running (a : Word) (w : Width) (v : Word) : (memWrite s a w v).running = s.running := by
  unfold memWrite; split <;> rfl
@[simp] theorem memWrite_instructionCount (a : Word) (w : Width) (v : Word) : (memWrite s a w v).instructionCount = s.instructionCount := by
  unfold memWrite; split <;> rfl
@[simp] theorem memWrite_programWordCount (a : Word) (w : Width) (v : Word) : (memWrite s a w v).programWordCount = s.programWordCount := by
  unfold memWrite; split <;> rfl
@[simp] theorem memWrite_regions (a : Word) (w : Width) (v : Word) : (memWrite s a w v).regions = s.regions := by
  unfold memWrite; split <;> rfl
@[simp] theorem memWrite_program (a : Word) (w : Width) (v : Word) : (memWrite s a w v).program = s.program := by
  unfold memWrite; split <;> rfl
@[simp] theorem memWrite_report (a : Word) (w : Width) (v : Word) : (memWrite s a w v).report = s.report := by
  unfold memWrite; split <;> rfl
@[simp] theorem memWrite_reg (a : Word) (w : Width) (v : Word) (i : RegIdx) :
    (memWrite s a w v).reg i = s.reg i := by
  unfold memWrite; split <;> rfl

end Sys2Proof.Machine
end

