-- ==== Sys2Proof/Laws/Memory.lean ====
section
/-! SUPPORT. The laws of memory: read after write, the canonical form, and what the accesses of R42 and R44 do. -/

namespace Sys2Proof.Machine

namespace Memory

/-- In a canonical memory whose cells all lie above `a`, the byte at `a` reads 0. -/
theorem read_of_lt {m : Memory} {a : Nat} (h : ∀ c ∈ m, a < c.1) : m.read a = 0#8 := by
  induction m with
  | nil => rfl
  | cons c m ih =>
    obtain ⟨k, v⟩ := c
    have hk : a < k := h (k, v) List.mem_cons_self
    have : k ≠ a := by omega
    simp only [read, this, if_false]
    exact ih fun c hc => h c (List.mem_cons_of_mem _ hc)

/-- The cells of a memory after a write are the written one and cells that were there. -/
theorem mem_write {m : Memory} {a : Nat} {b : Byte} {c : Host.Cell} (h : c ∈ m.write a b) :
    c = (a, b) ∨ c ∈ m := by
  induction m with
  | nil =>
    simp only [write] at h
    split at h
    · simp at h
    · exact .inl (by simpa using h)
  | cons d m ih =>
    obtain ⟨k, v⟩ := d
    simp only [write] at h
    split at h
    · split at h
      · exact .inr h
      · simpa using h
    · split at h
      · split at h
        · exact .inr (List.mem_cons_of_mem _ h)
        · rcases List.mem_cons.mp h with h | h
          · exact .inl h
          · exact .inr (List.mem_cons_of_mem _ h)
      · rcases List.mem_cons.mp h with h | h
        · exact .inr (h ▸ List.mem_cons_self)
        · rcases ih h with h | h
          · exact .inl h
          · exact .inr (List.mem_cons_of_mem _ h)

/-- Every write keeps the canonical form. -/
theorem write_wf {m : Memory} (h : m.wf) (a : Nat) (b : Byte) : (m.write a b).wf := by
  induction m with
  | nil =>
    simp only [write]
    split
    · exact h
    · next hb => exact ⟨List.pairwise_singleton _ _, by simpa using hb⟩
  | cons d m ih =>
    obtain ⟨k, v⟩ := d
    obtain ⟨hp, hz⟩ := h
    have hp' := List.pairwise_cons.mp hp
    have hm : Memory.wf m := ⟨hp'.2, fun c hc => hz c (List.mem_cons_of_mem _ hc)⟩
    simp only [write]
    split
    · next hak =>
      split
      · exact ⟨hp, hz⟩
      · next hb =>
        refine ⟨List.pairwise_cons.mpr ⟨fun c hc => ?_, hp⟩, fun c hc => ?_⟩
        · rcases List.mem_cons.mp hc with rfl | hc
          · exact hak
          · exact Nat.lt_trans hak (hp'.1 c hc)
        · rcases List.mem_cons.mp hc with rfl | hc
          · exact hb
          · exact hz c hc
    · next hak =>
      split
      · next hk =>
        split
        · exact hm
        · next hb =>
          refine ⟨List.pairwise_cons.mpr ⟨fun c hc => ?_, hp'.2⟩, fun c hc => ?_⟩
          · exact hk ▸ hp'.1 c hc
          · rcases List.mem_cons.mp hc with rfl | hc
            · exact hb
            · exact hz c (List.mem_cons_of_mem _ hc)
      · next hk =>
        have hw := ih hm
        refine ⟨List.pairwise_cons.mpr ⟨fun c hc => ?_, hw.1⟩, fun c hc => ?_⟩
        · rcases mem_write hc with rfl | hc
          · show k < a; omega
          · exact hp'.1 c hc
        · rcases List.mem_cons.mp hc with rfl | hc
          · exact hz _ List.mem_cons_self
          · exact hw.2 c hc

/-- A byte read after a write: the written byte there, what was there elsewhere. The memory is canonical, since a
write of 0 removes one cell. -/
theorem read_write {m : Memory} (h : m.wf) (a c : Nat) (b : Byte) :
    (m.write a b).read c = if c = a then b else m.read c := by
  induction m with
  | nil =>
    by_cases hb : b = 0#8
    · simp [write, read, hb]
    · by_cases hc : c = a
      · simp [write, read, hb, hc]
      · have : ¬ a = c := fun e => hc e.symm
        simp [write, read, hb, hc, this]
  | cons d m ih =>
    obtain ⟨k, v⟩ := d
    obtain ⟨hp, hz⟩ := h
    have hp' := List.pairwise_cons.mp hp
    have hm : Memory.wf m := ⟨hp'.2, fun c hc => hz c (List.mem_cons_of_mem _ hc)⟩
    simp only [write]
    split
    · next hak =>
      have below : ∀ x ∈ (k, v) :: m, a < x.1 := fun x hx => by
        rcases List.mem_cons.mp hx with rfl | hx
        · exact hak
        · exact Nat.lt_trans hak (hp'.1 x hx)
      by_cases hb : b = 0#8
      · by_cases hc : c = a
        · simp [hb, hc, read_of_lt below]
        · simp [hb, hc]
      · by_cases hc : c = a
        · simp [hb, hc, read]
        · have : ¬ a = c := fun e => hc e.symm
          simp [hb, hc, read, this]
    · next hak =>
      split
      · next hk =>
        subst hk
        by_cases hb : b = 0#8
        · by_cases hc : c = a
          · simp [hb, hc, read_of_lt (m := m) (a := a) (fun x hx => hp'.1 x hx)]
          · have : ¬ a = c := fun e => hc e.symm
            simp [hb, hc, read, this]
        · by_cases hc : c = a
          · simp [hb, hc, read]
          · have : ¬ a = c := fun e => hc e.symm
            simp [hb, hc, read, this]
      · next hk =>
        by_cases hc : k = c
        · subst hc
          have : ¬ k = a := fun e => hk e.symm
          simp [read, this]
        · simp [read, hc, ih hm]

/-- Two canonical memories that read alike at every address are equal. -/
theorem eq_of_read {m n : Memory} (hm : m.wf) (hn : n.wf) (h : ∀ a, m.read a = n.read a) : m = n := by
  induction m generalizing n with
  | nil =>
    cases n with
    | nil => rfl
    | cons d n =>
      exact absurd (by simpa [read] using (h d.1).symm) (hn.2 d List.mem_cons_self)
  | cons c m ih =>
    obtain ⟨k, v⟩ := c
    have cm := List.pairwise_cons.mp hm.1
    have hv : v ≠ 0#8 := hm.2 (k, v) List.mem_cons_self
    have wfm : Memory.wf m := ⟨cm.2, fun c hc => hm.2 c (List.mem_cons_of_mem _ hc)⟩
    cases n with
    | nil => exact absurd (by simpa [read] using h k) hv
    | cons d n =>
      obtain ⟨l, w⟩ := d
      have cn := List.pairwise_cons.mp hn.1
      have hw : w ≠ 0#8 := hn.2 (l, w) List.mem_cons_self
      have wfn : Memory.wf n := ⟨cn.2, fun c hc => hn.2 c (List.mem_cons_of_mem _ hc)⟩
      have hkl : k = l := by
        rcases Nat.lt_trichotomy k l with hlt | heq | hgt
        · have hr : Memory.read ((l, w) :: n) k = 0#8 := read_of_lt fun x hx => by
            rcases List.mem_cons.mp hx with rfl | hx
            · exact hlt
            · exact Nat.lt_trans hlt (cn.1 x hx)
          have := h k
          rw [hr] at this
          exact absurd (by simpa [read] using this) hv
        · exact heq
        · have hr : Memory.read ((k, v) :: m) l = 0#8 := read_of_lt fun x hx => by
            rcases List.mem_cons.mp hx with rfl | hx
            · exact hgt
            · exact Nat.lt_trans hgt (cm.1 x hx)
          have := h l
          rw [hr] at this
          exact absurd (by simpa [read] using this.symm) hw
      subst hkl
      have hvw : v = w := by simpa [read] using h k
      subst hvw
      have tails : m = n := ih wfm wfn fun a => by
        by_cases ha : k = a
        · subst ha
          rw [read_of_lt fun x hx => cm.1 x hx, read_of_lt fun x hx => cn.1 x hx]
        · simpa [read, ha] using h a
      rw [tails]

theorem writeBytes_wf {m : Memory} (h : m.wf) (a : Nat) (bs : List Byte) : (m.writeBytes a bs).wf := by
  induction bs generalizing m a with
  | nil => exact h
  | cons b bs ih => exact ih (write_wf h a b) (a + 1)

/-- The bytes read after a run of bytes was written from `a` up. -/
theorem read_writeBytes {m : Memory} (h : m.wf) (a : Nat) (bs : List Byte) (c : Nat) :
    (m.writeBytes a bs).read c =
      if hc : a ≤ c ∧ c - a < bs.length then bs[c - a]'hc.2 else m.read c := by
  induction bs generalizing m a with
  | nil => simp [writeBytes]
  | cons b bs ih =>
    rw [writeBytes, ih (write_wf h a b), read_write h]
    by_cases h1 : c = a
    · subst h1; simp
    · by_cases h2 : a + 1 ≤ c
      · obtain ⟨k, rfl⟩ : ∃ k, c = a + 1 + k := ⟨c - (a + 1), by omega⟩
        have e1 : a + 1 + k - (a + 1) = k := by omega
        have e2 : a + 1 + k - a = k + 1 := by omega
        by_cases hk : k < bs.length
        · have : a ≤ a + 1 + k := by omega
          simp [e1, e2, hk, this]
        · simp [e1, e2, hk, h1]
      · have h3 : ¬ a ≤ c := by omega
        simp [h1, h2, h3]

/-- A cell after a run of writes was there before or lies at one of the written addresses. -/
theorem mem_writeBytes {m : Memory} {a : Nat} {bs : List Byte} {c : Host.Cell} (h : c ∈ m.writeBytes a bs) :
    (a ≤ c.1 ∧ c.1 < a + bs.length) ∨ c ∈ m := by
  induction bs generalizing m a with
  | nil => exact .inr h
  | cons b bs ih =>
    rcases ih h with ⟨h1, h2⟩ | h
    · exact .inl ⟨by omega, by simp only [List.length_cons]; omega⟩
    · rcases mem_write h with rfl | h
      · exact .inl ⟨Nat.le_refl _, by simp⟩
      · exact .inr h

end Memory

/-! ## The accesses -/

theorem inBounds_congr {s t : State} (h : t.regions = s.regions) (a : Word) : inBounds t a = inBounds s a := by
  unfold inBounds; rw [h]

@[simp] theorem bytesOfWord_length (v : Word) : (bytesOfWord v).length = 4 := rfl

/-- The stored bytes of an access: as many as its width. -/
theorem storedBytes_length (w : Width) (v : Word) : ((bytesOfWord v).take w.bytes).length = w.bytes := by
  cases w <;> rfl

/-- MemWrite keeps the canonical form. -/
theorem memWrite_wf {s : State} (h : s.mem.wf) (a : Word) (w : Width) (v : Word) : (memWrite s a w v).mem.wf := by
  unfold memWrite
  split
  · exact Memory.writeBytes_wf h _ _
  · exact h

/-- An out-of-bounds MemWrite changes nothing (R40). -/
theorem memWrite_outOfBounds {s : State} {a : Word} (h : inBounds s a = false) (w : Width) (v : Word) :
    memWrite s a w v = s := by
  simp [memWrite, h]

/-- MemWrite leaves every byte outside the stored ones alone (R44). -/
theorem read_memWrite_outside {s : State} (h : s.mem.wf) (a : Word) (w : Width) (v : Word) {b : Nat}
    (hb : b < a.toNat ∨ a.toNat + w.bytes ≤ b) : (memWrite s a w v).mem.read b = s.mem.read b := by
  unfold memWrite
  split
  · have len := storedBytes_length w v
    rw [State.setMem_mem, Memory.read_writeBytes h, dif_neg (by omega)]
  · rfl

/-- MemWrite's `k`-th byte is the `k`-th byte of the value (R44). -/
theorem read_memWrite_inside {s : State} (h : s.mem.wf) {a : Word} (hin : inBounds s a = true) (w : Width) (v : Word)
    {k : Nat} (hk : k < w.bytes) :
    (memWrite s a w v).mem.read (a.toNat + k) = v.extractLsb' (8 * k) 8 := by
  have e : a.toNat + k - a.toNat = k := by omega
  have len := storedBytes_length w v
  rw [memWrite, if_pos hin, State.setMem_mem, Memory.read_writeBytes h, dif_pos ⟨by omega, by omega⟩]
  simp only [e, List.getElem_take]
  cases w <;> simp only [Width.bytes] at hk <;>
    rcases k with _ | _ | _ | _ | k <;> first | rfl | omega

/-- A little-endian word put together again from its bytes (R38, R40). -/
theorem wordOfBytes_bytes (v : Word) :
    wordOfBytes (v.extractLsb' 0 8) (v.extractLsb' 8 8) (v.extractLsb' 16 8) (v.extractLsb' 24 8) = v := by
  apply BitVec.eq_of_getLsbD_eq
  intro i hi
  simp only [wordOfBytes, BitVec.getLsbD_append, BitVec.getLsbD_extractLsb']
  by_cases h1 : i < 8
  · simp [h1]
  · by_cases h2 : i - 8 < 8
    · simp [h1, h2, show 8 + (i - 8) = i by omega]
    · by_cases h3 : i - 8 - 8 < 8
      · simp [h1, h2, h3, show 16 + (i - 8 - 8) = i by omega]
      · simp [h1, h2, h3, show 24 + (i - 8 - 8 - 8) = i by omega, show i - 8 - 8 - 8 < 8 by omega]

/-- The state after reset has a canonical memory: nothing is listed. -/
theorem reset_wf : State.reset.mem.wf := ⟨List.Pairwise.nil, by simp [State.reset]⟩

end Sys2Proof.Machine
end

