-- ==== Sys2Proof/Laws/Exec.lean ====
section
/-! SUPPORT. What each shared operation of the meanings answers, and, once for all instructions, every next state
EXECUTE can answer (40_cycle.md R72 to R74). -/

namespace Sys2Proof.Machine

/-! ## The shared operations, one lemma each -/

theorem writeResult_eq (d : RegIdx) (v : Word) (s : State) :
    writeResult d v s = .next ((template s).setReg d v) := rfl

theorem writeHiLo_eq (hi lo : Word) (s : State) :
    writeHiLo hi lo s = .next (((template s).setHi hi).setLo lo) := rfl

theorem writeProduct_eq (p : BitVec 64) (s : State) :
    writeProduct p s = .next (((template s).setHi (p.extractLsb' 32 32)).setLo (p.extractLsb' 0 32)) := rfl

theorem trappingAdd_eq (word : Word) (d : RegIdx) (a b : Word) (s : State) :
    trappingAdd word d a b s =
      .next (if addOverflows a b then
          reportFault (template s) (instructionReport .arithmeticOverflow s.pc word)
        else (template s).setReg d (a + b)) := by
  unfold trappingAdd writeResult
  split <;> rfl

theorem divideInto_eq (word divisor quotient remainder : Word) (s : State) :
    divideInto word divisor quotient remainder s =
      .next (if divisor = 0#32 then
          reportFault (template s) (instructionReport .divideByZero s.pc word)
        else ((template s).setHi remainder).setLo quotient) := by
  unfold divideInto writeHiLo
  split <;> rfl

theorem loadInto_eq (word : Word) (w : Width) (extend : Word → Word) (d : RegIdx) (ea : Word) (s : State) :
    loadInto word w extend d ea s =
      .next (if aligned ea w then
          ((template s).setReg d (extend (memRead s ea w))).setReport
            (outOfBoundsReport s ea (dataReport .outOfBoundsMemoryAccess s.pc word ea .load w))
        else reportFault (template s) (dataReport .unalignedAccess s.pc word ea .load w)) := by
  unfold loadInto
  split <;> rfl

theorem storeFrom_eq (word : Word) (w : Width) (v ea : Word) (s : State) :
    storeFrom word w v ea s =
      .next (if aligned ea w then
          (memWrite (template s) ea w v).setReport
            (outOfBoundsReport s ea (dataReport .outOfBoundsMemoryAccess s.pc word ea .store w))
        else reportFault (template s) (dataReport .unalignedAccess s.pc word ea .store w)) := by
  unfold storeFrom
  split <;> rfl

theorem jumpTo_eq (target : Word) (s : State) : jumpTo target s = .next ((template s).setPc target) := rfl

theorem jumpAndLink_eq (d : RegIdx) (target : Word) (s : State) :
    jumpAndLink d target s = .next (((template s).setReg d (linkAddress s.pc)).setPc target) := rfl

theorem branchIf_eq (c : Bool) (imm : Imm16) (s : State) :
    branchIf c imm s =
      .next ((template s).setPc (if c then branchTarget s.pc imm else s.pc + 4#32)) := by
  unfold branchIf jumpTo
  split <;> rfl

/-! ## Accesses in and out of the regions -/

theorem outOfBoundsReport_inside {s : State} {a : Word} (h : inBounds s a = true) (r : FaultReport) :
    outOfBoundsReport s a r = none := by simp [outOfBoundsReport, h]

theorem outOfBoundsReport_outside {s : State} {a : Word} (h : inBounds s a = false) (r : FaultReport) :
    outOfBoundsReport s a r = some r := by simp [outOfBoundsReport, h]

theorem memRead_outside {s : State} {a : Word} (h : inBounds s a = false) (w : Width) : memRead s a w = 0#32 := by
  simp [memRead, h]

/-- A memory write through the template is one on the current memory: stores are not buffered (R47). -/
theorem memWrite_template_mem (s : State) (a : Word) (w : Width) (v : Word) :
    (memWrite (template s) a w v).mem = (memWrite s a w v).mem := by
  have same : inBounds (template s) a = inBounds s a := inBounds_congr rfl a
  cases h : inBounds s a <;> simp [memWrite, same, h]

/-- MemWrite inside a region, byte by byte: the stored bytes, and the ones that were there (R43, R44). -/
theorem read_memWrite {s : State} (h : s.mem.wf) {a : Word} (hin : inBounds s a = true) (w : Width) (v : Word)
    (b : Nat) : (memWrite s a w v).mem.read b = byteAfterStore s a w.bytes v b := by
  unfold byteAfterStore
  split
  · next hb => simpa [Nat.add_sub_of_le hb.1] using
      read_memWrite_inside h hin w v (k := b - a.toNat) (by omega)
  · exact read_memWrite_outside h a w v (by omega)

/-! ## Everything EXECUTE can do -/

/-- The next states an instruction can answer, with what each says of the instruction. -/
inductive Effect (i : Instr) (s : State) : State → Prop where
  | register (d : RegIdx) (v : Word) (h : destination i = some d) : Effect i s ((template s).setReg d v)
  | hiAndLo (hi lo : Word) (h : mayWriteHi i = true) (h' : mayWriteLo i = true) :
      Effect i s (((template s).setHi hi).setLo lo)
  | hiOnly (v : Word) (h : mayWriteHi i = true) : Effect i s ((template s).setHi v)
  | loOnly (v : Word) (h : mayWriteLo i = true) : Effect i s ((template s).setLo v)
  | load (d : RegIdx) (v : Word) (r : Option FaultReport) (h : destination i = some d) :
      Effect i s (((template s).setReg d v).setReport r)
  | store (a : Word) (w : Width) (v : Word) (r : Option FaultReport) (h : storedBytes i s = some (a, w.bytes))
      (al : aligned a w = true) : Effect i s ((memWrite (template s) a w v).setReport r)
  | jump (target : Word) : Effect i s ((template s).setPc target)
  | link (d : RegIdx) (target : Word) (h : destination i = some d) :
      Effect i s (((template s).setReg d (linkAddress s.pc)).setPc target)
  | halt (ignored : BitVec 20) (h : i = .syscall ignored) : Effect i s ((template s).setRunning false)
  | fault (r : FaultReport) : Effect i s (reportFault (template s) r)

theorem effect_trappingAdd {i : Instr} {s : State} {d : RegIdx} (h : destination i = some d) (word a b : Word) :
    ∃ t, trappingAdd word d a b s = .next t ∧ Effect i s t := by
  rw [trappingAdd_eq]
  refine ⟨_, rfl, ?_⟩
  split
  · exact .fault _
  · exact .register d _ h

theorem effect_divideInto {i : Instr} {s : State} (h : mayWriteHi i = true) (h' : mayWriteLo i = true)
    (word b q r : Word) : ∃ t, divideInto word b q r s = .next t ∧ Effect i s t := by
  rw [divideInto_eq]
  refine ⟨_, rfl, ?_⟩
  split
  · exact .fault _
  · exact .hiAndLo _ _ h h'

theorem effect_loadInto {i : Instr} {s : State} {d : RegIdx} (h : destination i = some d) (word : Word) (w : Width)
    (extend : Word → Word) (ea : Word) : ∃ t, loadInto word w extend d ea s = .next t ∧ Effect i s t := by
  rw [loadInto_eq]
  refine ⟨_, rfl, ?_⟩
  split
  · exact .load d _ _ h
  · exact .fault _

theorem effect_storeFrom {i : Instr} {s : State} {ea : Word} {w : Width} (h : storedBytes i s = some (ea, w.bytes))
    (word v : Word) : ∃ t, storeFrom word w v ea s = .next t ∧ Effect i s t := by
  rw [storeFrom_eq]
  refine ⟨_, rfl, ?_⟩
  split
  · next al => exact .store ea w v _ h al
  · exact .fault _

theorem effect_branchIf {i : Instr} {s : State} (c : Bool) (imm : Imm16) :
    ∃ t, branchIf c imm s = .next t ∧ Effect i s t := by
  rw [branchIf_eq]
  exact ⟨_, rfl, .jump _⟩

/-- Every instruction answers a next state, and one of these. -/
theorem exec_effect (i : Instr) (s : State) : ∃ t, exec i s = .next t ∧ Effect i s t := by
  cases i with
  | add rs rt rd shamt => exact effect_trappingAdd rfl _ _ _
  | addi rs rt imm => exact effect_trappingAdd rfl _ _ _
  | addu rs rt rd shamt => exact ⟨_, rfl, .register rd _ rfl⟩
  | addiu rs rt imm => exact ⟨_, rfl, .register rt _ rfl⟩
  | sub rs rt rd shamt => exact ⟨_, rfl, .register rd _ rfl⟩
  | subu rs rt rd shamt => exact ⟨_, rfl, .register rd _ rfl⟩
  | and rs rt rd shamt => exact ⟨_, rfl, .register rd _ rfl⟩
  | andi rs rt imm => exact ⟨_, rfl, .register rt _ rfl⟩
  | or rs rt rd shamt => exact ⟨_, rfl, .register rd _ rfl⟩
  | ori rs rt imm => exact ⟨_, rfl, .register rt _ rfl⟩
  | xor rs rt rd shamt => exact ⟨_, rfl, .register rd _ rfl⟩
  | xori rs rt imm => exact ⟨_, rfl, .register rt _ rfl⟩
  | nor rs rt rd shamt => exact ⟨_, rfl, .register rd _ rfl⟩
  | sll rs rt rd shamt => exact ⟨_, rfl, .register rd _ rfl⟩
  | srl rs rt rd shamt => exact ⟨_, rfl, .register rd _ rfl⟩
  | sra rs rt rd shamt => exact ⟨_, rfl, .register rd _ rfl⟩
  | slt rs rt rd shamt => exact ⟨_, rfl, .register rd _ rfl⟩
  | slti rs rt imm => exact ⟨_, rfl, .register rt _ rfl⟩
  | sltu rs rt rd shamt => exact ⟨_, rfl, .register rd _ rfl⟩
  | sltiu rs rt imm => exact ⟨_, rfl, .register rt _ rfl⟩
  | lui rs rt imm => exact ⟨_, rfl, .register rt _ rfl⟩
  | mult rs rt rd shamt => exact ⟨_, rfl, .hiAndLo _ _ rfl rfl⟩
  | multu rs rt rd shamt => exact ⟨_, rfl, .hiAndLo _ _ rfl rfl⟩
  | div rs rt rd shamt => exact effect_divideInto rfl rfl _ _ _ _
  | divu rs rt rd shamt => exact effect_divideInto rfl rfl _ _ _ _
  | mfhi rs rt rd shamt => exact ⟨_, rfl, .register rd _ rfl⟩
  | mflo rs rt rd shamt => exact ⟨_, rfl, .register rd _ rfl⟩
  | mthi rs rt rd shamt => exact ⟨_, rfl, .hiOnly _ rfl⟩
  | mtlo rs rt rd shamt => exact ⟨_, rfl, .loOnly _ rfl⟩
  | lb rs rt imm => exact effect_loadInto rfl _ _ _ _
  | lh rs rt imm => exact effect_loadInto rfl _ _ _ _
  | lw rs rt imm => exact effect_loadInto rfl _ _ _ _
  | lbu rs rt imm => exact effect_loadInto rfl _ _ _ _
  | lhu rs rt imm => exact effect_loadInto rfl _ _ _ _
  | sb rs rt imm => exact effect_storeFrom rfl _ _
  | sh rs rt imm => exact effect_storeFrom rfl _ _
  | sw rs rt imm => exact effect_storeFrom rfl _ _
  | j target => exact ⟨_, rfl, .jump _⟩
  | jal target => exact ⟨_, rfl, .link 31#5 _ rfl⟩
  | jr rs rt rd shamt => exact ⟨_, rfl, .jump _⟩
  | jalr rs rt rd shamt => exact ⟨_, rfl, .link rd _ rfl⟩
  | beq rs rt imm => exact effect_branchIf _ _
  | bne rs rt imm => exact effect_branchIf _ _
  | blez rs rt imm => exact effect_branchIf _ _
  | bgtz rs rt imm => exact effect_branchIf _ _
  | bltz rs imm => exact effect_branchIf _ _
  | bgez rs imm => exact effect_branchIf _ _
  | syscall ignored => exact ⟨_, rfl, .halt ignored rfl⟩

/-- The effect of an instruction whose next state is known. -/
theorem effect_of_exec {i : Instr} {s t : State} (h : exec i s = .next t) : Effect i s t := by
  obtain ⟨u, hu, he⟩ := exec_effect i s
  rw [hu] at h
  exact Host.Outcome.next.inj h ▸ he

end Sys2Proof.Machine
end

