-- ==== Sys2Proof/Laws/PerInstr.lean ====
section
/-! SUPPORT. Lemmas made per instruction (LAWS.json). The family Selector: the encoded word of an instruction has the
selector bits of its own row of opcode_table.json, whatever its other fields (30_encoding.md R61). -/

namespace Sys2Proof.Laws.Selector

/-- The word of `i` has the selector bits of the row that bears its name. -/
def Statement (i : Instr) : Prop := ∃ r ∈ opcodeTable, r.mnemonic = i.mnemonic ∧ r.selects (encode i)

theorem add (rs rt rd : RegIdx) (shamt : BitVec 5) : Statement (.add rs rt rd shamt) :=
  ⟨⟨"ADD", 0x00000020#32, 0xFC00003F#32⟩, by decide, rfl, rWord_selector _ _ _ _ _⟩

theorem addi (rs rt : RegIdx) (imm : Imm16) : Statement (.addi rs rt imm) :=
  ⟨⟨"ADDI", 0x20000000#32, 0xFC000000#32⟩, by decide, rfl, iWord_selector _ _ _ _⟩

theorem addu (rs rt rd : RegIdx) (shamt : BitVec 5) : Statement (.addu rs rt rd shamt) :=
  ⟨⟨"ADDU", 0x00000021#32, 0xFC00003F#32⟩, by decide, rfl, rWord_selector _ _ _ _ _⟩

theorem addiu (rs rt : RegIdx) (imm : Imm16) : Statement (.addiu rs rt imm) :=
  ⟨⟨"ADDIU", 0x24000000#32, 0xFC000000#32⟩, by decide, rfl, iWord_selector _ _ _ _⟩

theorem sub (rs rt rd : RegIdx) (shamt : BitVec 5) : Statement (.sub rs rt rd shamt) :=
  ⟨⟨"SUB", 0x00000022#32, 0xFC00003F#32⟩, by decide, rfl, rWord_selector _ _ _ _ _⟩

theorem subu (rs rt rd : RegIdx) (shamt : BitVec 5) : Statement (.subu rs rt rd shamt) :=
  ⟨⟨"SUBU", 0x00000023#32, 0xFC00003F#32⟩, by decide, rfl, rWord_selector _ _ _ _ _⟩

theorem and (rs rt rd : RegIdx) (shamt : BitVec 5) : Statement (.and rs rt rd shamt) :=
  ⟨⟨"AND", 0x00000024#32, 0xFC00003F#32⟩, by decide, rfl, rWord_selector _ _ _ _ _⟩

theorem andi (rs rt : RegIdx) (imm : Imm16) : Statement (.andi rs rt imm) :=
  ⟨⟨"ANDI", 0x30000000#32, 0xFC000000#32⟩, by decide, rfl, iWord_selector _ _ _ _⟩

theorem or (rs rt rd : RegIdx) (shamt : BitVec 5) : Statement (.or rs rt rd shamt) :=
  ⟨⟨"OR", 0x00000025#32, 0xFC00003F#32⟩, by decide, rfl, rWord_selector _ _ _ _ _⟩

theorem ori (rs rt : RegIdx) (imm : Imm16) : Statement (.ori rs rt imm) :=
  ⟨⟨"ORI", 0x34000000#32, 0xFC000000#32⟩, by decide, rfl, iWord_selector _ _ _ _⟩

theorem xor (rs rt rd : RegIdx) (shamt : BitVec 5) : Statement (.xor rs rt rd shamt) :=
  ⟨⟨"XOR", 0x00000026#32, 0xFC00003F#32⟩, by decide, rfl, rWord_selector _ _ _ _ _⟩

theorem xori (rs rt : RegIdx) (imm : Imm16) : Statement (.xori rs rt imm) :=
  ⟨⟨"XORI", 0x38000000#32, 0xFC000000#32⟩, by decide, rfl, iWord_selector _ _ _ _⟩

theorem nor (rs rt rd : RegIdx) (shamt : BitVec 5) : Statement (.nor rs rt rd shamt) :=
  ⟨⟨"NOR", 0x00000027#32, 0xFC00003F#32⟩, by decide, rfl, rWord_selector _ _ _ _ _⟩

theorem sll (rs rt rd : RegIdx) (shamt : BitVec 5) : Statement (.sll rs rt rd shamt) :=
  ⟨⟨"SLL", 0x00000000#32, 0xFC00003F#32⟩, by decide, rfl, rWord_selector _ _ _ _ _⟩

theorem srl (rs rt rd : RegIdx) (shamt : BitVec 5) : Statement (.srl rs rt rd shamt) :=
  ⟨⟨"SRL", 0x00000002#32, 0xFC00003F#32⟩, by decide, rfl, rWord_selector _ _ _ _ _⟩

theorem sra (rs rt rd : RegIdx) (shamt : BitVec 5) : Statement (.sra rs rt rd shamt) :=
  ⟨⟨"SRA", 0x00000003#32, 0xFC00003F#32⟩, by decide, rfl, rWord_selector _ _ _ _ _⟩

theorem slt (rs rt rd : RegIdx) (shamt : BitVec 5) : Statement (.slt rs rt rd shamt) :=
  ⟨⟨"SLT", 0x0000002A#32, 0xFC00003F#32⟩, by decide, rfl, rWord_selector _ _ _ _ _⟩

theorem slti (rs rt : RegIdx) (imm : Imm16) : Statement (.slti rs rt imm) :=
  ⟨⟨"SLTI", 0x28000000#32, 0xFC000000#32⟩, by decide, rfl, iWord_selector _ _ _ _⟩

theorem sltu (rs rt rd : RegIdx) (shamt : BitVec 5) : Statement (.sltu rs rt rd shamt) :=
  ⟨⟨"SLTU", 0x0000002B#32, 0xFC00003F#32⟩, by decide, rfl, rWord_selector _ _ _ _ _⟩

theorem sltiu (rs rt : RegIdx) (imm : Imm16) : Statement (.sltiu rs rt imm) :=
  ⟨⟨"SLTIU", 0x2C000000#32, 0xFC000000#32⟩, by decide, rfl, iWord_selector _ _ _ _⟩

theorem lui (rs rt : RegIdx) (imm : Imm16) : Statement (.lui rs rt imm) :=
  ⟨⟨"LUI", 0x3C000000#32, 0xFC000000#32⟩, by decide, rfl, iWord_selector _ _ _ _⟩

theorem mult (rs rt rd : RegIdx) (shamt : BitVec 5) : Statement (.mult rs rt rd shamt) :=
  ⟨⟨"MULT", 0x00000018#32, 0xFC00003F#32⟩, by decide, rfl, rWord_selector _ _ _ _ _⟩

theorem multu (rs rt rd : RegIdx) (shamt : BitVec 5) : Statement (.multu rs rt rd shamt) :=
  ⟨⟨"MULTU", 0x00000019#32, 0xFC00003F#32⟩, by decide, rfl, rWord_selector _ _ _ _ _⟩

theorem div (rs rt rd : RegIdx) (shamt : BitVec 5) : Statement (.div rs rt rd shamt) :=
  ⟨⟨"DIV", 0x0000001A#32, 0xFC00003F#32⟩, by decide, rfl, rWord_selector _ _ _ _ _⟩

theorem divu (rs rt rd : RegIdx) (shamt : BitVec 5) : Statement (.divu rs rt rd shamt) :=
  ⟨⟨"DIVU", 0x0000001B#32, 0xFC00003F#32⟩, by decide, rfl, rWord_selector _ _ _ _ _⟩

theorem mfhi (rs rt rd : RegIdx) (shamt : BitVec 5) : Statement (.mfhi rs rt rd shamt) :=
  ⟨⟨"MFHI", 0x00000010#32, 0xFC00003F#32⟩, by decide, rfl, rWord_selector _ _ _ _ _⟩

theorem mflo (rs rt rd : RegIdx) (shamt : BitVec 5) : Statement (.mflo rs rt rd shamt) :=
  ⟨⟨"MFLO", 0x00000012#32, 0xFC00003F#32⟩, by decide, rfl, rWord_selector _ _ _ _ _⟩

theorem mthi (rs rt rd : RegIdx) (shamt : BitVec 5) : Statement (.mthi rs rt rd shamt) :=
  ⟨⟨"MTHI", 0x00000011#32, 0xFC00003F#32⟩, by decide, rfl, rWord_selector _ _ _ _ _⟩

theorem mtlo (rs rt rd : RegIdx) (shamt : BitVec 5) : Statement (.mtlo rs rt rd shamt) :=
  ⟨⟨"MTLO", 0x00000013#32, 0xFC00003F#32⟩, by decide, rfl, rWord_selector _ _ _ _ _⟩

theorem lb (rs rt : RegIdx) (imm : Imm16) : Statement (.lb rs rt imm) :=
  ⟨⟨"LB", 0x80000000#32, 0xFC000000#32⟩, by decide, rfl, iWord_selector _ _ _ _⟩

theorem lh (rs rt : RegIdx) (imm : Imm16) : Statement (.lh rs rt imm) :=
  ⟨⟨"LH", 0x84000000#32, 0xFC000000#32⟩, by decide, rfl, iWord_selector _ _ _ _⟩

theorem lw (rs rt : RegIdx) (imm : Imm16) : Statement (.lw rs rt imm) :=
  ⟨⟨"LW", 0x8C000000#32, 0xFC000000#32⟩, by decide, rfl, iWord_selector _ _ _ _⟩

theorem lbu (rs rt : RegIdx) (imm : Imm16) : Statement (.lbu rs rt imm) :=
  ⟨⟨"LBU", 0x90000000#32, 0xFC000000#32⟩, by decide, rfl, iWord_selector _ _ _ _⟩

theorem lhu (rs rt : RegIdx) (imm : Imm16) : Statement (.lhu rs rt imm) :=
  ⟨⟨"LHU", 0x94000000#32, 0xFC000000#32⟩, by decide, rfl, iWord_selector _ _ _ _⟩

theorem sb (rs rt : RegIdx) (imm : Imm16) : Statement (.sb rs rt imm) :=
  ⟨⟨"SB", 0xA0000000#32, 0xFC000000#32⟩, by decide, rfl, iWord_selector _ _ _ _⟩

theorem sh (rs rt : RegIdx) (imm : Imm16) : Statement (.sh rs rt imm) :=
  ⟨⟨"SH", 0xA4000000#32, 0xFC000000#32⟩, by decide, rfl, iWord_selector _ _ _ _⟩

theorem sw (rs rt : RegIdx) (imm : Imm16) : Statement (.sw rs rt imm) :=
  ⟨⟨"SW", 0xAC000000#32, 0xFC000000#32⟩, by decide, rfl, iWord_selector _ _ _ _⟩

theorem j (target : Target26) : Statement (.j target) :=
  ⟨⟨"J", 0x08000000#32, 0xFC000000#32⟩, by decide, rfl, jWord_selector _ _⟩

theorem jal (target : Target26) : Statement (.jal target) :=
  ⟨⟨"JAL", 0x0C000000#32, 0xFC000000#32⟩, by decide, rfl, jWord_selector _ _⟩

theorem jr (rs rt rd : RegIdx) (shamt : BitVec 5) : Statement (.jr rs rt rd shamt) :=
  ⟨⟨"JR", 0x00000008#32, 0xFC00003F#32⟩, by decide, rfl, rWord_selector _ _ _ _ _⟩

theorem jalr (rs rt rd : RegIdx) (shamt : BitVec 5) : Statement (.jalr rs rt rd shamt) :=
  ⟨⟨"JALR", 0x00000009#32, 0xFC00003F#32⟩, by decide, rfl, rWord_selector _ _ _ _ _⟩

theorem beq (rs rt : RegIdx) (imm : Imm16) : Statement (.beq rs rt imm) :=
  ⟨⟨"BEQ", 0x10000000#32, 0xFC000000#32⟩, by decide, rfl, iWord_selector _ _ _ _⟩

theorem bne (rs rt : RegIdx) (imm : Imm16) : Statement (.bne rs rt imm) :=
  ⟨⟨"BNE", 0x14000000#32, 0xFC000000#32⟩, by decide, rfl, iWord_selector _ _ _ _⟩

theorem blez (rs rt : RegIdx) (imm : Imm16) : Statement (.blez rs rt imm) :=
  ⟨⟨"BLEZ", 0x18000000#32, 0xFC000000#32⟩, by decide, rfl, iWord_selector _ _ _ _⟩

theorem bgtz (rs rt : RegIdx) (imm : Imm16) : Statement (.bgtz rs rt imm) :=
  ⟨⟨"BGTZ", 0x1C000000#32, 0xFC000000#32⟩, by decide, rfl, iWord_selector _ _ _ _⟩

theorem bltz (rs : RegIdx) (imm : Imm16) : Statement (.bltz rs imm) :=
  ⟨⟨"BLTZ", 0x04000000#32, 0xFC1F0000#32⟩, by decide, rfl, iWord_subSelector _ _ _ _⟩

theorem bgez (rs : RegIdx) (imm : Imm16) : Statement (.bgez rs imm) :=
  ⟨⟨"BGEZ", 0x04010000#32, 0xFC1F0000#32⟩, by decide, rfl, iWord_subSelector _ _ _ _⟩

theorem syscall (ignored : BitVec 20) : Statement (.syscall ignored) :=
  ⟨⟨"SYSCALL", 0x0000000C#32, 0xFC00003F#32⟩, by decide, rfl, syscallWord_selector _⟩

end Sys2Proof.Laws.Selector
end

