-- ==== Sys2Proof/Laws/Step.lean ====
section
/-! SUPPORT. What a step can do (40_cycle.md R67 to R76), once. -/

namespace Sys2Proof.Machine

/-- FETCH at an aligned pc (R68, R69). -/
theorem fetch_aligned {s : State} (h : aligned s.pc .word = true) :
    fetch s = .word (memRead s s.pc .word)
      (outOfBoundsReport s s.pc (fetchReport .outOfBoundsMemoryAccess s.pc)) := by
  simp [fetch, h]

/-- FETCH at a misaligned pc (R70). -/
theorem fetch_misaligned {s : State} (h : aligned s.pc .word = false) : fetch s = .misaligned := by
  simp [fetch, h]

/-- The word fetched inside a region is the one in memory. -/
theorem memRead_inside_word {s : State} {a : Word} (h : inBounds s a = true) :
    memRead s a .word = s.mem.readWord a.toNat := by
  simp [memRead, h]

@[simp] theorem mergeReport_none (t : State) : mergeReport none t = t := rfl

theorem mergeReport_some (r : FaultReport) (t : State) : mergeReport (some r) t = t.setReport (some r) := rfl

/-- The merged report changes the report only. -/
theorem mergeReport_eq (f : Option FaultReport) (t : State) :
    mergeReport f t = t.setReport (match f with | some r => some r | none => t.report) := by
  cases f <;> rfl

/-- Everything one step of a running core can do: a misaligned fetch, an illegal word, or an instruction's effect
with the fetch's report put first. -/
theorem step_cases {s t : State} (h : step s = .next t) :
    regionsAdmissible s.regions = true ∧
      ((s.running = false ∧ t = s) ∨
        (s.running = true ∧
          ((aligned s.pc .word = false ∧
              t = commit (reportFault (template s) (fetchReport .unalignedAccess s.pc))) ∨
            (aligned s.pc .word = true ∧ ∃ e, decodeWord (memRead s s.pc .word) = .error e ∧
              t = commit (illegalWord (memRead s s.pc .word) s)) ∨
            (aligned s.pc .word = true ∧ ∃ i u, decodeWord (memRead s s.pc .word) = .ok i ∧
              exec i s = .next u ∧ Effect i s u ∧
              t = commit (mergeReport
                (outOfBoundsReport s s.pc (fetchReport .outOfBoundsMemoryAccess s.pc)) u))))) := by
  unfold step stepOnce at h
  by_cases adm : regionsAdmissible s.regions = true
  · refine ⟨adm, ?_⟩
    rw [if_pos adm] at h
    cases run : s.running with
    | false =>
      rw [run] at h
      exact .inl ⟨rfl, (Host.Outcome.next.inj h).symm⟩
    | true =>
      rw [run, if_pos rfl] at h
      refine .inr ⟨rfl, ?_⟩
      unfold cycle at h
      cases al : aligned s.pc .word with
      | false =>
        rw [fetch_misaligned al] at h
        exact .inl ⟨rfl, (Host.Outcome.next.inj h).symm⟩
      | true =>
        rw [fetch_aligned al] at h
        simp only at h
        cases dec : decodeWord (memRead s s.pc .word) with
        | error e =>
          rw [dec] at h
          exact .inr (.inl ⟨rfl, e, rfl, (Host.Outcome.next.inj h).symm⟩)
        | ok i =>
          rw [dec] at h
          obtain ⟨u, hu, he⟩ := exec_effect i s
          simp only [hu, finish] at h
          exact .inr (.inr ⟨rfl, i, u, rfl, hu, he, (Host.Outcome.next.inj h).symm⟩)
  · rw [if_neg adm] at h
    cases h

/-- A core with an admissible region table always steps: nothing stops it (R145). -/
theorem step_answers {s : State} (adm : regionsAdmissible s.regions = true) : ∃ t, step s = .next t := by
  unfold step stepOnce
  rw [if_pos adm]
  split
  · unfold cycle
    split
    · exact ⟨_, rfl⟩
    · split
      · next i _ =>
        obtain ⟨u, hu, _⟩ := exec_effect i s
        rw [hu]
        exact ⟨_, rfl⟩
      · exact ⟨_, rfl⟩
  · exact ⟨_, rfl⟩

/-! ## The canonical form of memory under the operations from outside -/

/-- Loading words keeps memory canonical. -/
theorem loadWords_wf (ws : List Word) : ∀ {s : State}, s.mem.wf → ∀ a, (loadWords s a ws).1.mem.wf := by
  induction ws with
  | nil => exact fun h _ => h
  | cons w ws ih => exact fun h a => ih (memWrite_wf h a .word w) (a + 4#32)

/-- `load_program` keeps memory canonical. -/
theorem loadProgram_wf {s : State} (h : s.mem.wf) (ws : List Word) : (loadProgram s ws).1.mem.wf :=
  loadWords_wf ws h Config.textBase

/-- The host's memory write keeps memory canonical. -/
theorem writeMemoryWord_wf {s : State} (h : s.mem.wf) (a v : Word) : (writeMemoryWord s a v).1.mem.wf := by
  unfold writeMemoryWord
  split
  · exact memWrite_wf h a .word v
  · exact h

/-- The host's reset leaves a canonical memory. -/
theorem hostReset_wf (s : State) : (hostReset s).1.mem.wf :=
  loadProgram_wf (s := blankState s.regions s.program) reset_wf s.program

/-- Placing a word where the step fetches keeps memory canonical. -/
theorem placeFetchWord_wf {s : State} (h : s.mem.wf) (w : Word) : (placeFetchWord s w).mem.wf := by
  unfold placeFetchWord
  exact memWrite_wf (by simpa using h) _ .word w

/-! ## What loading a program does (R51) -/

/-- MemWrite changes memory only. -/
theorem memWrite_frame (s : State) (a : Word) (w : Width) (v : Word) :
    memWrite s a w v = { s with mem := (memWrite s a w v).mem } := by
  unfold memWrite
  split <;> rfl

/-- A word written inside a region reads back. -/
theorem readWord_memWrite {s : State} (h : s.mem.wf) {a : Word} (hin : inBounds s a = true) (v : Word) :
    (memWrite s a .word v).mem.readWord a.toNat = v := by
  have byte := fun k hk => read_memWrite_inside h hin .word v (k := k) hk
  have first : _ = _ := byte 0 (by decide)
  rw [Nat.add_zero] at first
  rw [Memory.readWord, first, byte 1 (by decide), byte 2 (by decide), byte 3 (by decide)]
  exact wordOfBytes_bytes v

/-- Loading words changes memory only. -/
theorem loadWords_frame (ws : List Word) : ∀ (s : State) (a : Word),
    (loadWords s a ws).1 = { s with mem := (loadWords s a ws).1.mem } := by
  induction ws with
  | nil => exact fun _ _ => rfl
  | cons w ws ih =>
    intro s a
    simp only [loadWords]
    rw [ih]
    unfold memWrite
    split <;> rfl

/-- Loading words reports each word that falls outside every region, in order. -/
theorem loadWords_reports (ws : List Word) : ∀ (s : State) (a : Word),
    (loadWords s a ws).2 =
      (List.range ws.length).filterMap (fun k => hostWriteReport s (a + BitVec.ofNat 32 (4 * k))) := by
  induction ws with
  | nil => exact fun _ _ => rfl
  | cons w ws ih =>
    intro s a
    have same : ∀ x, hostWriteReport (memWrite s a .word w) x = hostWriteReport s x := fun x => by
      have regions : (memWrite s a .word w).regions = s.regions := by rw [memWrite_frame]
      simp only [hostWriteReport, outOfBoundsReport, inBounds_congr regions]
    have next : ∀ k, a + 4#32 + BitVec.ofNat 32 (4 * k) = a + BitVec.ofNat 32 (4 * (k + 1)) := fun k => by
      apply BitVec.eq_of_toNat_eq
      simp only [BitVec.toNat_add, BitVec.toNat_ofNat]
      omega
    simp only [loadWords, ih, same, next, List.length_cons, List.range_succ_eq_map, List.filterMap_cons,
      List.filterMap_map, Nat.mul_zero, BitVec.add_zero, Function.comp_def]
    cases hostWriteReport s a <;> rfl

/-- The bytes after loading words that do not wrap around the address space: the words inside a region, and every
other byte as it was. -/
theorem loadWords_mem (ws : List Word) : ∀ {s : State} {a : Word}, s.mem.wf → a.toNat + 4 * ws.length ≤ 2 ^ 32 →
    (∀ b, b < a.toNat ∨ a.toNat + 4 * ws.length ≤ b → (loadWords s a ws).1.mem.read b = s.mem.read b) ∧
    (∀ (k : Nat) (h : k < ws.length),
      (inBounds s (a + BitVec.ofNat 32 (4 * k)) = true →
        (loadWords s a ws).1.mem.readWord (a.toNat + 4 * k) = ws[k]) ∧
      (inBounds s (a + BitVec.ofNat 32 (4 * k)) = false → ∀ j, j < 4 →
        (loadWords s a ws).1.mem.read (a.toNat + 4 * k + j) = s.mem.read (a.toNat + 4 * k + j))) := by
  induction ws with
  | nil => exact fun _ _ => ⟨fun _ _ => rfl, fun _ h => absurd h (Nat.not_lt_zero _)⟩
  | cons w ws ih =>
    intro s a wf fits
    simp only [List.length_cons] at fits ⊢
    have here : ∀ b, b < a.toNat ∨ a.toNat + 4 ≤ b → (memWrite s a .word w).mem.read b = s.mem.read b :=
      fun b hb => read_memWrite_outside wf a .word w hb
    have same : ∀ x, inBounds (memWrite s a .word w) x = inBounds s x := fun x =>
      inBounds_congr (by rw [memWrite_frame]) x
    -- what the words after the first do, also when there are none
    obtain ⟨rest, words⟩ : (∀ b, b < a.toNat + 4 ∨ a.toNat + 4 + 4 * ws.length ≤ b →
          (loadWords s a (w :: ws)).1.mem.read b = (memWrite s a .word w).mem.read b) ∧
        (∀ (k : Nat) (h : k < ws.length),
          (inBounds s (a + BitVec.ofNat 32 (4 * (k + 1))) = true →
            (loadWords s a (w :: ws)).1.mem.readWord (a.toNat + 4 * (k + 1)) = ws[k]) ∧
          (inBounds s (a + BitVec.ofNat 32 (4 * (k + 1))) = false → ∀ j, j < 4 →
            (loadWords s a (w :: ws)).1.mem.read (a.toNat + 4 * (k + 1) + j) =
              (memWrite s a .word w).mem.read (a.toNat + 4 * (k + 1) + j))) := by
      rcases Nat.eq_zero_or_pos ws.length with empty | more
      · rw [List.length_eq_zero_iff.mp empty]
        exact ⟨fun _ _ => rfl, fun _ h => absurd h (Nat.not_lt_zero _)⟩
      · have at4 : (a + 4#32).toNat = a.toNat + 4 := by
          rw [BitVec.toNat_add, BitVec.toNat_ofNat]
          omega
        have next : ∀ k, a + 4#32 + BitVec.ofNat 32 (4 * k) = a + BitVec.ofNat 32 (4 * (k + 1)) := fun k => by
          apply BitVec.eq_of_toNat_eq
          simp only [BitVec.toNat_add, BitVec.toNat_ofNat]
          omega
        have after := ih (s := memWrite s a .word w) (a := a + 4#32) (memWrite_wf wf _ _ _) (by omega)
        simp only [same, next, at4] at after
        refine ⟨after.1, fun k h => ?_⟩
        rw [show a.toNat + 4 * (k + 1) = a.toNat + 4 + 4 * k by omega]
        exact after.2 k h
    refine ⟨fun b hb => by rw [rest b (by omega), here b (by omega)], fun k hk => ?_⟩
    cases k with
    | zero =>
      simp only [Nat.mul_zero, BitVec.add_zero, Nat.add_zero]
      refine ⟨fun hin => ?_, fun hout j hj => by rw [rest _ (by omega), memWrite_outOfBounds hout]⟩
      rw [Memory.readWord, rest _ (by omega), rest _ (by omega), rest _ (by omega), rest _ (by omega)]
      exact readWord_memWrite wf hin w
    | succ k =>
      refine ⟨fun hin => (words k (by omega)).1 hin, fun hout j hj => ?_⟩
      rw [(words k (by omega)).2 hout j hj, here _ (by omega)]

end Sys2Proof.Machine
end

