-- ==== Sys2Proof/Tests/Slice0.lean ====
section
/-! SUPPORT. The model's own tests: the well-formedness checks, one written-out word per constructor, one or two
vectors of 95_test_vectors.md per instruction (the expected values are the vectors', not the model's), and, for every
obligation with hypotheses, a state that meets them. -/

namespace Sys2Proof.Tests

open Sys2Proof.Machine

/-! ## Helpers -/

/-- The state after reset with these registers. -/
def stateWith (regs : List (RegIdx × Word)) : State :=
  regs.foldl (fun s p => s.setReg p.1 p.2) State.reset

/-- The data of 95_test_vectors.md L2.3: 0x11223344 at 0x10010000 and 0x80FF7F01 at 0x10010004. -/
def withData (s : State) : State :=
  memWrite (memWrite s 0x10010000#32 .word 0x11223344#32) 0x10010004#32 .word 0x80FF7F01#32

/-- The state one step after this word is placed where the step fetches. -/
def after (w : Nat) (s : State) : Option State :=
  match step (s.withFetchWord 32 w) with
  | .next t => some t
  | .fault _ => none
  | .refused _ => none

/-- The number of the fault the last cycle reported (60_exceptions.md R144). -/
def faultNumber (t : State) : Option Nat := t.report.map (fun r => r.code.number)

/-- The address of the access fault the last cycle reported. -/
def faultAddress (t : State) : Option Word := t.report.bind (fun r => r.access.map (fun a => a.addr))

/-- A step whose result passes a check is a cycle to a state that passes it. -/
theorem cycles_of_after {w : Nat} {s : State} (p : State → Bool) (run : (s.withFetchWord 32 w).running = true)
    (h : (after w s).any p = true) : ∃ t, Cycles (s.withFetchWord 32 w) t ∧ p t = true := by
  unfold after at h
  cases hs : step (s.withFetchWord 32 w) with
  | next t => rw [hs] at h; exact ⟨t, ⟨run, hs⟩, by simpa using h⟩
  | fault f => rw [hs] at h; simp at h
  | refused r => rw [hs] at h; simp at h

/-- EXECUTE of an instruction answers a state that passes a check. -/
def execPasses (i : Instr) (s : State) (p : State → Bool) : Bool :=
  match exec i s with
  | .next t => p t
  | .fault _ => false
  | .refused _ => false

theorem exec_of_passes {i : Instr} {s : State} {p : State → Bool} (h : execPasses i s p = true) :
    ∃ t, exec i s = .next t ∧ p t = true := by
  obtain ⟨t, ht, _⟩ := exec_effect i s
  exact ⟨t, ht, by simpa [execPasses, ht] using h⟩

/-! ## Well-formedness: a table that breaks each condition of 20_memory.md R33 is refused -/

/-- R33(a): limit below base. -/
theorem smoke_unordered :
    Region.ordered ⟨0x00400004, 0x003FFFFF⟩ = false ∧
      regionsAdmissible [⟨0x00400000, 0x004FFFFF⟩, ⟨0x10010004, 0x1000FFFF⟩] = false := by decide

/-- R33(b): two regions that share the address 0x00410000. -/
theorem smoke_overlapping :
    regionsDisjoint [⟨0x00400000, 0x00410003⟩, ⟨0x00410000, 0x0041FFFF⟩] = false ∧
      regionsAdmissible [⟨0x00400000, 0x00410003⟩, ⟨0x00410000, 0x0041FFFF⟩] = false := by decide

/-- R33(c): a base, and a limit + 1, that is no multiple of 4. -/
theorem smoke_unaligned_region :
    Region.wordAligned ⟨0x00400002, 0x004FFFFF⟩ = false ∧ Region.wordAligned ⟨0x00400000, 0x004FFFFE⟩ = false ∧
      regionsAdmissible [⟨0x00400000, 0x004FFFFE⟩] = false := by decide

/-- R33(d): no region contains TEXT_BASE. -/
theorem smoke_no_text_region :
    oneTextRegion [⟨0x10010000, 0x1010FFFF⟩] = false ∧
      regionsAdmissible [⟨0x10010000, 0x1010FFFF⟩] = false := by decide

/-- The default table is admissible, and a step with an inadmissible one is refused. -/
theorem smoke_default_table : regionsAdmissible Config.defaultRegions = true := by decide

theorem smoke_step_refuses :
    (step { State.reset with regions := [] }) = .refused .inadmissibleRegions := rfl

/-! ## Decoding: a word written out bit by bit for every constructor (30_encoding.md R54, R58 to R60) -/

theorem test_decode_add : decodeWord 0b000000_00001_00010_00011_00100_100000#32 = .ok (.add 1 2 3 4) := by decide
theorem test_decode_addi : decodeWord 0b001000_00001_00010_1000000000000011#32 = .ok (.addi 1 2 0x8003) := by decide
theorem test_decode_addu : decodeWord 0b000000_00001_00010_00011_00100_100001#32 = .ok (.addu 1 2 3 4) := by decide
theorem test_decode_addiu : decodeWord 0b001001_00001_00010_1000000000000011#32 = .ok (.addiu 1 2 0x8003) := by decide
theorem test_decode_sub : decodeWord 0b000000_00001_00010_00011_00100_100010#32 = .ok (.sub 1 2 3 4) := by decide
theorem test_decode_subu : decodeWord 0b000000_00001_00010_00011_00100_100011#32 = .ok (.subu 1 2 3 4) := by decide
theorem test_decode_and : decodeWord 0b000000_00001_00010_00011_00100_100100#32 = .ok (.and 1 2 3 4) := by decide
theorem test_decode_andi : decodeWord 0b001100_00001_00010_1000000000000011#32 = .ok (.andi 1 2 0x8003) := by decide
theorem test_decode_or : decodeWord 0b000000_00001_00010_00011_00100_100101#32 = .ok (.or 1 2 3 4) := by decide
theorem test_decode_ori : decodeWord 0b001101_00001_00010_1000000000000011#32 = .ok (.ori 1 2 0x8003) := by decide
theorem test_decode_xor : decodeWord 0b000000_00001_00010_00011_00100_100110#32 = .ok (.xor 1 2 3 4) := by decide
theorem test_decode_xori : decodeWord 0b001110_00001_00010_1000000000000011#32 = .ok (.xori 1 2 0x8003) := by decide
theorem test_decode_nor : decodeWord 0b000000_00001_00010_00011_00100_100111#32 = .ok (.nor 1 2 3 4) := by decide
theorem test_decode_sll : decodeWord 0b000000_00001_00010_00011_00100_000000#32 = .ok (.sll 1 2 3 4) := by decide
theorem test_decode_srl : decodeWord 0b000000_00001_00010_00011_00100_000010#32 = .ok (.srl 1 2 3 4) := by decide
theorem test_decode_sra : decodeWord 0b000000_00001_00010_00011_00100_000011#32 = .ok (.sra 1 2 3 4) := by decide
theorem test_decode_slt : decodeWord 0b000000_00001_00010_00011_00100_101010#32 = .ok (.slt 1 2 3 4) := by decide
theorem test_decode_slti : decodeWord 0b001010_00001_00010_1000000000000011#32 = .ok (.slti 1 2 0x8003) := by decide
theorem test_decode_sltu : decodeWord 0b000000_00001_00010_00011_00100_101011#32 = .ok (.sltu 1 2 3 4) := by decide
theorem test_decode_sltiu : decodeWord 0b001011_00001_00010_1000000000000011#32 = .ok (.sltiu 1 2 0x8003) := by decide
theorem test_decode_lui : decodeWord 0b001111_00001_00010_1000000000000011#32 = .ok (.lui 1 2 0x8003) := by decide
theorem test_decode_mult : decodeWord 0b000000_00001_00010_00011_00100_011000#32 = .ok (.mult 1 2 3 4) := by decide
theorem test_decode_multu : decodeWord 0b000000_00001_00010_00011_00100_011001#32 = .ok (.multu 1 2 3 4) := by decide
theorem test_decode_div : decodeWord 0b000000_00001_00010_00011_00100_011010#32 = .ok (.div 1 2 3 4) := by decide
theorem test_decode_divu : decodeWord 0b000000_00001_00010_00011_00100_011011#32 = .ok (.divu 1 2 3 4) := by decide
theorem test_decode_mfhi : decodeWord 0b000000_00001_00010_00011_00100_010000#32 = .ok (.mfhi 1 2 3 4) := by decide
theorem test_decode_mflo : decodeWord 0b000000_00001_00010_00011_00100_010010#32 = .ok (.mflo 1 2 3 4) := by decide
theorem test_decode_mthi : decodeWord 0b000000_00001_00010_00011_00100_010001#32 = .ok (.mthi 1 2 3 4) := by decide
theorem test_decode_mtlo : decodeWord 0b000000_00001_00010_00011_00100_010011#32 = .ok (.mtlo 1 2 3 4) := by decide
theorem test_decode_lb : decodeWord 0b100000_00001_00010_1000000000000011#32 = .ok (.lb 1 2 0x8003) := by decide
theorem test_decode_lh : decodeWord 0b100001_00001_00010_1000000000000011#32 = .ok (.lh 1 2 0x8003) := by decide
theorem test_decode_lw : decodeWord 0b100011_00001_00010_1000000000000011#32 = .ok (.lw 1 2 0x8003) := by decide
theorem test_decode_lbu : decodeWord 0b100100_00001_00010_1000000000000011#32 = .ok (.lbu 1 2 0x8003) := by decide
theorem test_decode_lhu : decodeWord 0b100101_00001_00010_1000000000000011#32 = .ok (.lhu 1 2 0x8003) := by decide
theorem test_decode_sb : decodeWord 0b101000_00001_00010_1000000000000011#32 = .ok (.sb 1 2 0x8003) := by decide
theorem test_decode_sh : decodeWord 0b101001_00001_00010_1000000000000011#32 = .ok (.sh 1 2 0x8003) := by decide
theorem test_decode_sw : decodeWord 0b101011_00001_00010_1000000000000011#32 = .ok (.sw 1 2 0x8003) := by decide
theorem test_decode_j : decodeWord 0b000010_10000000000000000000000101#32 = .ok (.j 0x2000005) := by decide
theorem test_decode_jal : decodeWord 0b000011_10000000000000000000000101#32 = .ok (.jal 0x2000005) := by decide
theorem test_decode_jr : decodeWord 0b000000_00001_00010_00011_00100_001000#32 = .ok (.jr 1 2 3 4) := by decide
theorem test_decode_jalr : decodeWord 0b000000_00001_00010_00011_00100_001001#32 = .ok (.jalr 1 2 3 4) := by decide
theorem test_decode_beq : decodeWord 0b000100_00001_00010_1000000000000011#32 = .ok (.beq 1 2 0x8003) := by decide
theorem test_decode_bne : decodeWord 0b000101_00001_00010_1000000000000011#32 = .ok (.bne 1 2 0x8003) := by decide
theorem test_decode_blez : decodeWord 0b000110_00001_00010_1000000000000011#32 = .ok (.blez 1 2 0x8003) := by decide
theorem test_decode_bgtz : decodeWord 0b000111_00001_00010_1000000000000011#32 = .ok (.bgtz 1 2 0x8003) := by decide
theorem test_decode_bltz : decodeWord 0b000001_00011_00000_1000000000000011#32 = .ok (.bltz 3 0x8003) := by decide
theorem test_decode_bgez : decodeWord 0b000001_00011_00001_1000000000000011#32 = .ok (.bgez 3 0x8003) := by decide
theorem test_decode_syscall : decodeWord 0b000000_10000000000000000001_001100#32 = .ok (.syscall 0x80001) := by decide

/-- Each illegal family is rejected by its own name (R62). -/
theorem test_decode_rejects :
    decodeWord 0b010000_00000_00000_0000000000000000#32 = .error (.illegalOpcode 0x10) ∧
      decodeWord 0b000000_00000_00000_00000_00000_000100#32 = .error (.illegalFunct 0x04) ∧
      decodeWord 0b000001_00001_00010_0000000000000011#32 = .error (.illegalSubOpcode 2) ∧
      decodeBytes [0x20, 0x20, 0x09] = .error .truncated := by decide

/-- The source's scenario word, from its bytes in memory order, and the bytes after it. -/
theorem test_decode_bytes :
    decodeBytes [0x20, 0x20, 0x09, 0x01, 0xFF] = .ok (.add 8 9 4 0, [0xFF]) ∧
      decodeTableWord 32 0x01092020 = some (.add 8 9 4 0) ∧ decodeTableWord 32 0xFC000000 = none := by decide

/-- Words the spec prints beside their assembly text are what the encoder gives. -/
theorem test_encode_examples :
    encode (.addi 0 8 5) = 0x20080005 ∧ encode (.add 8 9 4 0) = 0x01092020 ∧ encode (.jal 0x0100004) = 0x0C100004 ∧
      encode (.bne 1 2 0xFFFE) = 0x1422FFFE ∧ encode (.sra 0 1 2 4) = 0x00011103 := by decide

/-! ## One step on a small state: vectors of 95_test_vectors.md L2 -/

/-! ### ALU -/

/-- Vector A1: ADD r3, r1, r2. -/
theorem test_add_A1 :
    (after 0x00221820 (stateWith [(1, 0x00000005), (2, 0x00000007)])).map (fun t => ([t.reg 3, t.pc], faultNumber t)) =
      some ([0x0000000C, 0x00400004], none) := by decide

/-- Vector A2: ADD r3, r1, r2. -/
theorem test_add_A2 :
    (after 0x00221820 (stateWith [(1, 0x7FFFFFFF), (2, 0x00000001), (3, 0x00001234)])).map (fun t => ([t.reg 3, t.pc], faultNumber t)) =
      some ([0x00001234, 0x00400004], some 2) := by decide

/-- Vector A8: ADDI r2, r1, 1. -/
theorem test_addi_A8 :
    (after 0x20220001 (stateWith [(1, 0x7FFFFFFF), (2, 0x00001234)])).map (fun t => ([t.reg 2, t.pc], faultNumber t)) =
      some ([0x00001234, 0x00400004], some 2) := by decide

/-- Vector A37: ADDI r0, r1, 5. -/
theorem test_addi_A37 :
    (after 0x20200005 (stateWith [(1, 0x00000001)])).map (fun t => ([t.reg 0, t.pc], faultNumber t)) =
      some ([0x00000000, 0x00400004], none) := by decide

/-- Vector A6: ADDU r3, r1, r2. -/
theorem test_addu_A6 :
    (after 0x00221821 (stateWith [(1, 0x7FFFFFFF), (2, 0x00000001)])).map (fun t => ([t.reg 3, t.pc], faultNumber t)) =
      some ([0x80000000, 0x00400004], none) := by decide

/-- Vector A10: ADDIU r2, r1, -1. -/
theorem test_addiu_A10 :
    (after 0x2422FFFF (stateWith [(1, 0x00000000)])).map (fun t => ([t.reg 2, t.pc], faultNumber t)) =
      some ([0xFFFFFFFF, 0x00400004], none) := by decide

/-- Vector A12: SUB r3, r1, r2. -/
theorem test_sub_A12 :
    (after 0x00221822 (stateWith [(1, 0x80000000), (2, 0x00000001)])).map (fun t => ([t.reg 3, t.pc], faultNumber t)) =
      some ([0x7FFFFFFF, 0x00400004], none) := by decide

/-- Vector A14: SUBU r3, r1, r2. -/
theorem test_subu_A14 :
    (after 0x00221823 (stateWith [(1, 0x00000003), (2, 0x00000005)])).map (fun t => ([t.reg 3, t.pc], faultNumber t)) =
      some ([0xFFFFFFFE, 0x00400004], none) := by decide

/-- Vector A15: AND r3, r1, r2. -/
theorem test_and_A15 :
    (after 0x00221824 (stateWith [(1, 0xF0F0F0F0), (2, 0xFF00FF00)])).map (fun t => ([t.reg 3, t.pc], faultNumber t)) =
      some ([0xF000F000, 0x00400004], none) := by decide

/-- Vector A20: ANDI r2, r1, 0xFFFF. -/
theorem test_andi_A20 :
    (after 0x3022FFFF (stateWith [(1, 0xFFFFFFFF)])).map (fun t => ([t.reg 2, t.pc], faultNumber t)) =
      some ([0x0000FFFF, 0x00400004], none) := by decide

/-- Vector A16: OR r3, r1, r2. -/
theorem test_or_A16 :
    (after 0x00221825 (stateWith [(1, 0xF0F0F0F0), (2, 0xFF00FF00)])).map (fun t => ([t.reg 3, t.pc], faultNumber t)) =
      some ([0xFFF0FFF0, 0x00400004], none) := by decide

/-- Vector A21: ORI r2, r0, 0x8000. -/
theorem test_ori_A21 :
    (after 0x34028000 (stateWith [])).map (fun t => ([t.reg 2, t.pc], faultNumber t)) =
      some ([0x00008000, 0x00400004], none) := by decide

/-- Vector A17: XOR r3, r1, r2. -/
theorem test_xor_A17 :
    (after 0x00221826 (stateWith [(1, 0xF0F0F0F0), (2, 0xFF00FF00)])).map (fun t => ([t.reg 3, t.pc], faultNumber t)) =
      some ([0x0FF00FF0, 0x00400004], none) := by decide

/-- Vector A22: XORI r2, r1, 0xFFFF. -/
theorem test_xori_A22 :
    (after 0x3822FFFF (stateWith [(1, 0x12345678)])).map (fun t => ([t.reg 2, t.pc], faultNumber t)) =
      some ([0x1234A987, 0x00400004], none) := by decide

/-- Vector A18: NOR r3, r1, r2. -/
theorem test_nor_A18 :
    (after 0x00221827 (stateWith [(1, 0xF0F0F0F0), (2, 0xFF00FF00)])).map (fun t => ([t.reg 3, t.pc], faultNumber t)) =
      some ([0x000F000F, 0x00400004], none) := by decide

/-- Vector A25: SLL r2, r1, 4. -/
theorem test_sll_A25 :
    (after 0x00011100 (stateWith [(1, 0x87654321)])).map (fun t => ([t.reg 2, t.pc], faultNumber t)) =
      some ([0x76543210, 0x00400004], none) := by decide

/-- Vector A27: SRL r2, r1, 4. -/
theorem test_srl_A27 :
    (after 0x00011102 (stateWith [(1, 0x87654321)])).map (fun t => ([t.reg 2, t.pc], faultNumber t)) =
      some ([0x08765432, 0x00400004], none) := by decide

/-- Vector A28: SRA r2, r1, 4. -/
theorem test_sra_A28 :
    (after 0x00011103 (stateWith [(1, 0x87654321)])).map (fun t => ([t.reg 2, t.pc], faultNumber t)) =
      some ([0xF8765432, 0x00400004], none) := by decide

/-- Vector A30: SLT r3, r1, r2. -/
theorem test_slt_A30 :
    (after 0x0022182A (stateWith [(1, 0xFFFFFFFF), (2, 0x00000001)])).map (fun t => ([t.reg 3, t.pc], faultNumber t)) =
      some ([0x00000001, 0x00400004], none) := by decide

/-- Vector A33: SLTI r2, r1, -1. -/
theorem test_slti_A33 :
    (after 0x2822FFFF (stateWith [(1, 0xFFFFFFFE)])).map (fun t => ([t.reg 2, t.pc], faultNumber t)) =
      some ([0x00000001, 0x00400004], none) := by decide

/-- Vector A31: SLTU r3, r1, r2. -/
theorem test_sltu_A31 :
    (after 0x0022182B (stateWith [(1, 0xFFFFFFFF), (2, 0x00000001)])).map (fun t => ([t.reg 3, t.pc], faultNumber t)) =
      some ([0x00000000, 0x00400004], none) := by decide

/-- Vector A35: SLTIU r2, r1, -1. -/
theorem test_sltiu_A35 :
    (after 0x2C22FFFF (stateWith [(1, 0x00000005)])).map (fun t => ([t.reg 2, t.pc], faultNumber t)) =
      some ([0x00000001, 0x00400004], none) := by decide

/-- Vector A36: SLTIU r2, r1, 0x7FFF. -/
theorem test_sltiu_A36 :
    (after 0x2C227FFF (stateWith [(1, 0x80000000)])).map (fun t => ([t.reg 2, t.pc], faultNumber t)) =
      some ([0x00000000, 0x00400004], none) := by decide

/-- Vector A24: LUI r1, 0xFFFF. -/
theorem test_lui_A24 :
    (after 0x3C01FFFF (stateWith [])).map (fun t => ([t.reg 1, t.pc], faultNumber t)) =
      some ([0xFFFF0000, 0x00400004], none) := by decide

/-! ### Multiply and divide -/

/-- Vector M2: MULT r1, r2. -/
theorem test_mult_M2 :
    (after 0x00220018 (stateWith [(1, 0x80000000), (2, 0x80000000)])).map (fun t => ([t.hi, t.lo, t.pc], faultNumber t)) =
      some ([0x40000000, 0x00000000, 0x00400004], none) := by decide

/-- Vector M3: MULT r1, r2. -/
theorem test_mult_M3 :
    (after 0x00220018 (stateWith [(1, 0xFFFFFFFE), (2, 0x00000003)])).map (fun t => ([t.hi, t.lo, t.pc], faultNumber t)) =
      some ([0xFFFFFFFF, 0xFFFFFFFA, 0x00400004], none) := by decide

/-- Vector M4: MULTU r1, r2. -/
theorem test_multu_M4 :
    (after 0x00220019 (stateWith [(1, 0xFFFFFFFF), (2, 0xFFFFFFFF)])).map (fun t => ([t.hi, t.lo, t.pc], faultNumber t)) =
      some ([0xFFFFFFFE, 0x00000001, 0x00400004], none) := by decide

/-- Vector M8: DIV r1, r2. -/
theorem test_div_M8 :
    (after 0x0022001A (stateWith [(1, 0x80000000), (2, 0xFFFFFFFF)])).map (fun t => ([t.hi, t.lo, t.pc], faultNumber t)) =
      some ([0x00000000, 0x80000000, 0x00400004], none) := by decide

/-- Vector M9: DIV r1, r2. -/
theorem test_div_M9 :
    (after 0x0022001A (((stateWith [(1, 0x00000007), (2, 0x00000000)]).setHi 0x11111111).setLo 0x22222222)).map (fun t => ([t.hi, t.lo, t.pc], faultNumber t)) =
      some ([0x11111111, 0x22222222, 0x00400004], some 3) := by decide

/-- Vector M10: DIVU r1, r2. -/
theorem test_divu_M10 :
    (after 0x0022001B (stateWith [(1, 0xFFFFFFF9), (2, 0x00000002)])).map (fun t => ([t.hi, t.lo, t.pc], faultNumber t)) =
      some ([0x00000001, 0x7FFFFFFC, 0x00400004], none) := by decide

/-- Vector M11: DIVU r1, r2. -/
theorem test_divu_M11 :
    (after 0x0022001B (((stateWith [(1, 0x00000005), (2, 0x00000000)]).setHi 0x00000003).setLo 0x00000004)).map (fun t => ([t.hi, t.lo, t.pc], faultNumber t)) =
      some ([0x00000003, 0x00000004, 0x00400004], some 3) := by decide

/-- Vector M12: MFHI r3. -/
theorem test_mfhi_M12 :
    (after 0x00001810 (((stateWith []).setHi 0xDEADBEEF).setLo 0x00000001)).map (fun t => ([t.reg 3, t.pc], faultNumber t)) =
      some ([0xDEADBEEF, 0x00400004], none) := by decide

/-- Vector M13: MFLO r3. -/
theorem test_mflo_M13 :
    (after 0x00001812 (((stateWith []).setHi 0xDEADBEEF).setLo 0x00000001)).map (fun t => ([t.reg 3, t.pc], faultNumber t)) =
      some ([0x00000001, 0x00400004], none) := by decide

/-- Vector M14: MTHI r1. -/
theorem test_mthi_M14 :
    (after 0x00200011 (stateWith [(1, 0xCAFEF00D)])).map (fun t => ([t.hi, t.pc], faultNumber t)) =
      some ([0xCAFEF00D, 0x00400004], none) := by decide

/-- Vector M15: MTLO r1. -/
theorem test_mtlo_M15 :
    (after 0x00200013 (stateWith [(1, 0xCAFEF00D)])).map (fun t => ([t.lo, t.pc], faultNumber t)) =
      some ([0xCAFEF00D, 0x00400004], none) := by decide

/-! ### Loads and stores -/

/-- Vector LS4: LB r3, 6(r1). -/
theorem test_lb_LS4 :
    (after 0x80230006 (withData (stateWith [(1, 0x10010000)]))).map (fun t => ([t.reg 3, t.pc], faultNumber t)) =
      some ([0xFFFFFFFF, 0x00400004], none) := by decide

/-- Vector LS9: LH r3, 6(r1). -/
theorem test_lh_LS9 :
    (after 0x84230006 (withData (stateWith [(1, 0x10010000)]))).map (fun t => ([t.reg 3, t.pc], faultNumber t)) =
      some ([0xFFFF80FF, 0x00400004], none) := by decide

/-- Vector LS11: LH r3, 1(r1). -/
theorem test_lh_LS11 :
    (after 0x84230001 (withData (stateWith [(1, 0x10010000), (3, 0x00000009)]))).map (fun t => ([t.reg 3, t.pc], faultNumber t, faultAddress t)) =
      some ([0x00000009, 0x00400004], some 5, some 0x10010001) := by decide

/-- Vector LS2: LW r3, 4(r1). -/
theorem test_lw_LS2 :
    (after 0x8C230004 (withData (stateWith [(1, 0x10010000)]))).map (fun t => ([t.reg 3, t.pc], faultNumber t)) =
      some ([0x80FF7F01, 0x00400004], none) := by decide

/-- Vector LS17: LW r3, -4(r1). -/
theorem test_lw_LS17 :
    (after 0x8C23FFFC (withData (stateWith [(1, 0x10010000), (3, 0x00000009)]))).map (fun t => ([t.reg 3, t.pc], faultNumber t, faultAddress t)) =
      some ([0x00000000, 0x00400004], some 4, some 0x1000FFFC) := by decide

/-- Vector LS5: LBU r3, 6(r1). -/
theorem test_lbu_LS5 :
    (after 0x90230006 (withData (stateWith [(1, 0x10010000)]))).map (fun t => ([t.reg 3, t.pc], faultNumber t)) =
      some ([0x000000FF, 0x00400004], none) := by decide

/-- Vector LS18: LBU r3, -1(r1). -/
theorem test_lbu_LS18 :
    (after 0x9023FFFF (withData (stateWith [(1, 0x10010000), (3, 0x00000009)]))).map (fun t => ([t.reg 3, t.pc], faultNumber t, faultAddress t)) =
      some ([0x00000000, 0x00400004], some 4, some 0x1000FFFF) := by decide

/-- Vector LS10: LHU r3, 6(r1). -/
theorem test_lhu_LS10 :
    (after 0x94230006 (withData (stateWith [(1, 0x10010000)]))).map (fun t => ([t.reg 3, t.pc], faultNumber t)) =
      some ([0x000080FF, 0x00400004], none) := by decide

/-- Vector LS12: SB r2, 1(r1). -/
theorem test_sb_LS12 :
    (after 0xA0220001 (withData (stateWith [(1, 0x10010000), (2, 0xAABBCCDD)]))).map (fun t => ([t.mem.readWord 0x10010000, t.pc], faultNumber t)) =
      some ([0x1122DD44, 0x00400004], none) := by decide

/-- Vector LS13: SH r2, 2(r1). -/
theorem test_sh_LS13 :
    (after 0xA4220002 (withData (stateWith [(1, 0x10010000), (2, 0xAABBCCDD)]))).map (fun t => ([t.mem.readWord 0x10010000, t.pc], faultNumber t)) =
      some ([0xCCDD3344, 0x00400004], none) := by decide

/-- Vector LS14: SH r2, 3(r1). -/
theorem test_sh_LS14 :
    (after 0xA4220003 (withData (stateWith [(1, 0x10010000), (2, 0xAABBCCDD)]))).map (fun t => ([t.mem.readWord 0x10010000, t.pc], faultNumber t, faultAddress t)) =
      some ([0x11223344, 0x00400004], some 5, some 0x10010003) := by decide

/-- Vector LS15: SW r2, 0(r1). -/
theorem test_sw_LS15 :
    (after 0xAC220000 (withData (stateWith [(1, 0x10010000), (2, 0xAABBCCDD)]))).map (fun t => ([t.mem.readWord 0x10010000, t.pc], faultNumber t)) =
      some ([0xAABBCCDD, 0x00400004], none) := by decide

/-- Vector LS16: SW r2, -4(r1). -/
theorem test_sw_LS16 :
    (after 0xAC22FFFC (withData (stateWith [(1, 0x10010000), (2, 0xAABBCCDD)]))).map (fun t => ([t.mem.readWord 0x10010000, t.pc], faultNumber t, faultAddress t)) =
      some ([0x11223344, 0x00400004], some 4, some 0x1000FFFC) := by decide

/-! ### Jumps and branches -/

/-- Vector CT1: J 0x00400010. -/
theorem test_j_CT1 :
    (after 0x08100004 (stateWith [])).map (fun t => ([t.pc], faultNumber t)) =
      some ([0x00400010], none) := by decide

/-- Vector CT3: JAL 0x00400010. -/
theorem test_jal_CT3 :
    (after 0x0C100004 (stateWith [])).map (fun t => ([t.reg 31, t.pc], faultNumber t)) =
      some ([0x00400008, 0x00400010], none) := by decide

/-- Vector CT5: JR r1. -/
theorem test_jr_CT5 :
    (after 0x00200008 (stateWith [(1, 0x00400102)])).map (fun t => ([t.pc], faultNumber t)) =
      some ([0x00400102], none) := by decide

/-- Vector CT7: JALR r3, r3. -/
theorem test_jalr_CT7 :
    (after 0x00601809 (stateWith [(3, 0x00400100)])).map (fun t => ([t.reg 3, t.pc], faultNumber t)) =
      some ([0x00400008, 0x00400100], none) := by decide

/-- Vector CT8: BEQ r1, r2, +2. -/
theorem test_beq_CT8 :
    (after 0x10220002 (stateWith [(1, 0x00000007), (2, 0x00000007)])).map (fun t => ([t.pc], faultNumber t)) =
      some ([0x0040000C], none) := by decide

/-- Vector CT12: BEQ r0, r0, -32768. -/
theorem test_beq_CT12 :
    (after 0x10008000 (stateWith [])).map (fun t => ([t.pc], faultNumber t)) =
      some ([0x003E0004], none) := by decide

/-- Vector CT13: BNE r1, r2, -2. -/
theorem test_bne_CT13 :
    (after 0x1422FFFE ((stateWith [(1, 0x00000007), (2, 0x00000008)]).setPc 0x00400010)).map (fun t => ([t.pc], faultNumber t)) =
      some ([0x0040000C], none) := by decide

/-- Vector CT14: BNE r1, r2, -2. -/
theorem test_bne_CT14 :
    (after 0x1422FFFE ((stateWith [(1, 0x00000007), (2, 0x00000007)]).setPc 0x00400010)).map (fun t => ([t.pc], faultNumber t)) =
      some ([0x00400014], none) := by decide

/-- Vector CT16: BLEZ r1, +4. -/
theorem test_blez_CT16 :
    (after 0x18200004 (stateWith [(1, 0x80000000)])).map (fun t => ([t.pc], faultNumber t)) =
      some ([0x00400014], none) := by decide

/-- Vector CT17: BLEZ r1, +4. -/
theorem test_blez_CT17 :
    (after 0x18200004 (stateWith [(1, 0x00000001)])).map (fun t => ([t.pc], faultNumber t)) =
      some ([0x00400004], none) := by decide

/-- Vector CT18: BGTZ r1, +4. -/
theorem test_bgtz_CT18 :
    (after 0x1C200004 (stateWith [(1, 0x00000001)])).map (fun t => ([t.pc], faultNumber t)) =
      some ([0x00400014], none) := by decide

/-- Vector CT19: BGTZ r1, +4. -/
theorem test_bgtz_CT19 :
    (after 0x1C200004 (stateWith [(1, 0x80000000)])).map (fun t => ([t.pc], faultNumber t)) =
      some ([0x00400004], none) := by decide

/-- Vector CT21: BLTZ r1, +3. -/
theorem test_bltz_CT21 :
    (after 0x04200003 (stateWith [(1, 0xFFFFFFFF)])).map (fun t => ([t.pc], faultNumber t)) =
      some ([0x00400010], none) := by decide

/-- Vector CT22: BLTZ r1, +3. -/
theorem test_bltz_CT22 :
    (after 0x04200003 (stateWith [(1, 0x00000000)])).map (fun t => ([t.pc], faultNumber t)) =
      some ([0x00400004], none) := by decide

/-- Vector CT23: BGEZ r1, +3. -/
theorem test_bgez_CT23 :
    (after 0x04210003 (stateWith [(1, 0x00000000)])).map (fun t => ([t.pc], faultNumber t)) =
      some ([0x00400010], none) := by decide

/-- Vector CT24: BGEZ r1, +3. -/
theorem test_bgez_CT24 :
    (after 0x04210003 (stateWith [(1, 0x80000000)])).map (fun t => ([t.pc], faultNumber t)) =
      some ([0x00400004], none) := by decide

/-! ### SYSCALL and an illegal word -/

/-- Vector S2: SYSCALL (bits 25:6 nonzero). -/
theorem test_syscall_S2 :
    (after 0x03FFFFCC (stateWith [])).map (fun t => ([t.pc], faultNumber t, t.running)) =
      some ([0x00400004], none, false) := by decide

/-- Vector S6: (REGIMM rt = 2). -/
theorem test_illegal_S6 :
    (after 0x04220003 (stateWith [(1, 0xFFFFFFFF)])).map (fun t => ([t.pc], faultNumber t)) =
      some ([0x00400004], some 1) := by decide

/-! ### Fetch faults, the host interface and reset -/

/-- Vector F1: a misaligned pc. -/
theorem test_fetch_F1 :
    (match step (State.reset.setPc 0x00400102) with
      | .next t => some ([t.pc, t.instructionCount], faultNumber t, faultAddress t)
      | _ => none) = some ([0x00400106, 1], some 5, some 0x00400102) := by decide

/-- Vector F3: the first address past the text region. -/
theorem test_fetch_F3 :
    (match step (State.reset.setPc 0x00500000) with
      | .next t => some ([t.pc, t.instructionCount], faultNumber t, faultAddress t)
      | _ => none) = some ([0x00500004, 1], some 4, some 0x00500000) := by decide

/-- Vectors MD1, MD2: host writes read back, and the byte at 0x1010FFFC is 0x04. -/
theorem test_host_memory_MD1_MD2 :
    readMemoryWord (writeMemoryWord State.reset 0x00400000 0xDEADBEEF).1 0x00400000 = (some 0xDEADBEEF, none) ∧
      readMemoryWord (writeMemoryWord State.reset 0x1010FFFC 0x01020304).1 0x1010FFFC = (some 0x01020304, none) ∧
      (writeMemoryWord State.reset 0x1010FFFC 0x01020304).1.mem.read 0x1010FFFC = 0x04 := by decide

/-- Vectors MD4, MD9, MD10. -/
theorem test_host_memory_MD4_MD9_MD10 :
    (readMemoryWord State.reset 0x00500000).1 = some 0 ∧ (readMemoryWord State.reset 0xFFFFFFFC).1 = some 0 ∧
      (readMemoryWord State.reset 0x10010002).1 = none := by decide

/-- Vector H1 and an index of 31. -/
theorem test_host_registers_H1 :
    (match writeRegister State.reset 0 0x12345678 with
      | .next t => (readRegister t 0).toOption
      | _ => none) = some 0 ∧
    (match writeRegister State.reset 31 0x12345678 with
      | .next t => (readRegister t 31).toOption
      | _ => none) = some 0x12345678 := by decide

/-- Vector H7 and E9 on the source's program: reset places it again. -/
theorem test_host_reset_H7 :
    (powerOn Config.defaultRegions [0x20080005, 0x20090003, 0x01092020]).1.mem.readWord 0x00400008 = 0x01092020 ∧
      hostReset (withData (powerOn Config.defaultRegions [0x20080005]).1) =
        powerOn Config.defaultRegions [0x20080005] := by decide

/-- R51 at reset: of three words, the third falls outside a text region of two and is reported. -/
theorem test_host_reset_reports :
    (hostReset (powerOn [⟨0x00400000, 0x00400007⟩] [1, 2, 3]).1).2 =
      [⟨.outOfBoundsMemoryAccess, none, none, some ⟨0x00400008, .store, .word⟩⟩] := by decide

/-! ## A witness for the hypotheses of every obligation that has some -/

theorem witness_EncodeInvertsDecode :
    decodeWord 0x01092020 = .ok (.add 8 9 4 0) ∧ decodeWord 0 = .ok (.sll 0 0 0 0) ∧
      decodeWord 0xAFFFFFFF = .ok (.sw 31 31 0xFFFF) := by decide

theorem witness_DecoderAgreesWithOpcodeTable :
    decodeWord 0x01092020 = .ok (.add 8 9 4 0) ∧
      ∃ r ∈ opcodeTable, r.selects 0x01092020 ∧ r.mnemonic = "ADD" :=
  ⟨by decide, ⟨"ADD", 0x00000020#32, 0xFC00003F#32⟩, by decide, rfl, rfl⟩

/-- The labels of vectors CT11 and CT12, at the two ends of the range. -/
theorem witness_BranchFieldReachesItsLabel :
    branchField 0x00400000 0x00420000 = some 0x7FFF ∧ branchField 0x00400000 0x003E0004 = some 0x8000 ∧
      branchField 0x00400000 0x00420004 = none ∧ branchField 0x00400000 0x00400002 = none := by decide

theorem witness_StepRunsTheFetchedInstruction :
    Fetches (State.reset.withFetchWord 32 0x01092020) (.add 8 9 4 0) := by
  unfold Fetches; decide

theorem witness_WordsAreLittleEndian :
    aligned 0x10010000 .word = true ∧ inBounds (withData State.reset) 0x10010000 = true ∧
      aligned 0x1010FFFC .word = true ∧ inBounds (withData State.reset) 0x1010FFFC = true := by decide

theorem witness_MisalignedFetchExecutesNothing :
    regionsAdmissible (State.reset.setPc 0x00400102).regions = true ∧
      (State.reset.setPc 0x00400102).running = true ∧ (State.reset.setPc 0x00400102).pc.toNat % 4 ≠ 0 := by
  decide

theorem witness_OutOfBoundsFetchRunsAsNop :
    regionsAdmissible (State.reset.setPc 0x00500000).regions = true ∧
      (State.reset.setPc 0x00500000).running = true ∧ (State.reset.setPc 0x00500000).pc.toNat % 4 = 0 ∧
      inBounds (State.reset.setPc 0x00500000) 0x00500000 = false := by decide

theorem witness_IllegalWordOnlyReports :
    regionsAdmissible (State.reset.withFetchWord 32 0x04220003).regions = true ∧
      (State.reset.withFetchWord 32 0x04220003).running = true ∧
      fetchable (State.reset.withFetchWord 32 0x04220003) 0x00400000 = true ∧
      (State.reset.withFetchWord 32 0x04220003).pc = 0x00400000 ∧
      decodeWord ((State.reset.withFetchWord 32 0x04220003).mem.readWord 0x00400000) =
        .error (.illegalSubOpcode 2) := by decide

theorem witness_EveryRunningCycleCommits :
    regionsAdmissible State.reset.regions = true ∧ State.reset.running = true := by decide

theorem witness_HaltedCoreChangesNothing :
    regionsAdmissible (hostStop State.reset).regions = true ∧ (hostStop State.reset).running = false := by decide

theorem witness_OnlySyscallOrStopHalts :
    (∃ t, Cycles (State.reset.withFetchWord 32 0x0000000C) t ∧ (!t.running) = true) ∧
      (∃ t, Cycles (State.reset.withFetchWord 32 0x01092020) t ∧ t.running = true) ∧
      ∃ t, writeRegister State.reset 31 5 = .next t :=
  ⟨cycles_of_after (fun t => !t.running) rfl (by decide), cycles_of_after (fun t => t.running) rfl (by decide),
    _, rfl⟩

/-- A fault that writes nothing, and an out-of-bounds load. -/
theorem witness_FaultingCycleGoesOnAtNextPc :
    (∃ t, Cycles ((stateWith [(1, 5)]).withFetchWord 32 0x0020001A) t ∧ (faultNumber t == some 3) = true) ∧
      (∃ t, Cycles ((stateWith [(1, 0x20000000)]).withFetchWord 32 0x8C230000) t ∧
        (faultNumber t == some 4) = true) :=
  ⟨cycles_of_after (fun t => faultNumber t == some 3) rfl (by decide),
    cycles_of_after (fun t => faultNumber t == some 4) rfl (by decide)⟩

/-- An overflow, a division by zero, a misaligned store and an out-of-bounds load. -/
theorem witness_FaultRecordsNameTheInstruction :
    (∃ t, exec (.add 1 2 3 0) (stateWith [(1, 0x7FFFFFFF), (2, 1)]) = .next t ∧ (faultNumber t == some 2) = true) ∧
      (∃ t, exec (.div 1 2 0 0) State.reset = .next t ∧ (faultNumber t == some 3) = true) ∧
      (∃ t, exec (.lb 0 2 0) State.reset = .next t ∧ (faultNumber t == some 4) = true) ∧
      (∃ t, exec (.sh 1 2 1) State.reset = .next t ∧ (faultNumber t == some 5) = true) :=
  ⟨exec_of_passes (p := fun t => faultNumber t == some 2) (by decide),
    exec_of_passes (p := fun t => faultNumber t == some 3) (by decide),
    exec_of_passes (p := fun t => faultNumber t == some 4) (by decide),
    exec_of_passes (p := fun t => faultNumber t == some 5) (by decide)⟩

theorem witness_RegisterZeroStaysZero :
    (stateWith [(1, 1)]).regs[0] = 0 ∧ (∃ t, exec (.addi 1 0 5) (stateWith [(1, 1)]) = .next t) ∧
      (∃ t, step (stateWith [(1, 1)]) = .next t) :=
  ⟨by decide, (exec_effect _ _).imp fun _ h => h.1, step_answers (by decide)⟩

theorem witness_StepKeepsTheInvariant :
    (withData State.reset).Inv ∧ ∃ t, step (withData State.reset) = .next t :=
  ⟨by decide, step_answers (by decide)⟩

/-- A state other than the reset one, and a program whose last word falls past a text region of two words. -/
theorem witness_HostResetIsIdempotent :
    (withData State.reset).regions = State.reset.regions ∧ (withData State.reset).program = State.reset.program ∧
      withData State.reset ≠ State.reset ∧
      (∃ t, t = (hostReset { State.reset with regions := [⟨0x00400000, 0x00400007⟩], program := [1, 2, 3] }).1) ∧
      0x00400000 + 4 * ([1, 2, 3] : List Word).length ≤ 2 ^ 32 ∧
      inBounds { State.reset with regions := [⟨0x00400000, 0x00400007⟩], program := [1, 2, 3] } 0x00400004 = true ∧
      inBounds { State.reset with regions := [⟨0x00400000, 0x00400007⟩], program := [1, 2, 3] } 0x00400008 = false :=
  ⟨by decide, by decide, by decide, ⟨_, rfl⟩, by decide, by decide, by decide⟩

theorem witness_OnlyTheDestinationRegisterChanges :
    destination (.addi 1 2 5) ≠ some 1 ∧ Instr.mnemonic (.addi 1 2 5) ≠ "SYSCALL" ∧
      ∃ t, exec (.addi 1 2 5) State.reset = .next t :=
  ⟨by decide, by decide, (exec_effect _ _).imp fun _ h => h.1⟩

theorem witness_OnlyMultiplyDivideAndMovesWriteHiLo :
    Instr.mnemonic (.mfhi 0 0 3 0) ∉ ["MULT", "MULTU", "DIV", "DIVU", "MTHI"] ∧
      Instr.mnemonic (.mthi 1 0 0 0) ∉ ["MULT", "MULTU", "DIV", "DIVU", "MTLO"] ∧
      ∃ t, exec (.mthi 1 0 0 0) State.reset = .next t :=
  ⟨by decide, by decide, (exec_effect _ _).imp fun _ h => h.1⟩

theorem witness_OnlyStoresChangeMemory :
    (withData (stateWith [(1, 0x10010000)])).mem.wf ∧
      storedBytes (.sb 1 2 1) (withData (stateWith [(1, 0x10010000)])) = some (0x10010001, 1) ∧
      storedBytes (.lb 1 2 1) (withData (stateWith [(1, 0x10010000)])) = none ∧
      ∃ t, exec (.sb 1 2 1) (withData (stateWith [(1, 0x10010000)])) = .next t :=
  ⟨by decide, by decide, by decide, (exec_effect _ _).imp fun _ h => h.1⟩

theorem witness_OnlyRegisterJumpsMisalignThePc :
    Instr.mnemonic (.add 1 2 3 0) ∉ ["J", "JAL", "JR", "JALR", "BEQ", "BNE", "BLEZ", "BGTZ", "BLTZ", "BGEZ"] ∧
      State.reset.pc.toNat % 4 = 0 ∧ Instr.mnemonic (.beq 1 2 3) ∉ ["JR", "JALR"] ∧
      (∃ t, exec (.add 1 2 3 0) State.reset = .next t) ∧ (∃ t, exec (.beq 1 2 3) State.reset = .next t) :=
  ⟨by decide, by decide, by decide, (exec_effect _ _).imp fun _ h => h.1, (exec_effect _ _).imp fun _ h => h.1⟩

/-- Sums of 2^31, -2^31 - 1, 2^31 - 1 and -2^31: each side of each end of the range. -/
theorem witness_AddTrapsOnSignedOverflow :
    (stateWith [(1, 0x7FFFFFFF), (2, 1)]).reg 1 = 0x7FFFFFFF ∧
      ((stateWith [(1, 0x7FFFFFFF), (2, 1)]).reg 1).toInt + ((stateWith [(1, 0x7FFFFFFF), (2, 1)]).reg 2).toInt >
        2 ^ 31 - 1 ∧
      ((stateWith [(1, 0x80000000), (2, 0xFFFFFFFF)]).reg 1).toInt +
        ((stateWith [(1, 0x80000000), (2, 0xFFFFFFFF)]).reg 2).toInt < -2 ^ 31 ∧
      ((stateWith [(1, 0x7FFFFFFF)]).reg 1).toInt + ((stateWith [(1, 0x7FFFFFFF)]).reg 2).toInt = 2 ^ 31 - 1 ∧
      ((stateWith [(1, 0x80000000)]).reg 1).toInt + ((stateWith [(1, 0x80000000)]).reg 2).toInt = -2 ^ 31 := by
  decide

theorem witness_AddImmediateTrapsOnSignedOverflow :
    ((stateWith [(1, 0x7FFFFFFF)]).reg 1).toInt + (1 : Imm16).toInt > 2 ^ 31 - 1 ∧
      ((stateWith [(1, 0x80000000)]).reg 1).toInt + (0xFFFF : Imm16).toInt < -2 ^ 31 ∧
      ((stateWith [(1, 0x7FFFFFFF)]).reg 1).toInt + (0 : Imm16).toInt = 2 ^ 31 - 1 ∧
      ((stateWith [(1, 0x80000000)]).reg 1).toInt + (0 : Imm16).toInt = -2 ^ 31 := by decide

theorem witness_OverflowIsEqualSignsAndAnotherSum :
    ((stateWith [(1, 0x7FFFFFFF), (2, 1)]).reg 1).getLsbD 31 =
        ((stateWith [(1, 0x7FFFFFFF), (2, 1)]).reg 2).getLsbD 31 ∧
      ((stateWith [(1, 0x7FFFFFFF), (2, 1)]).reg 1 + (stateWith [(1, 0x7FFFFFFF), (2, 1)]).reg 2).getLsbD 31 ≠
        ((stateWith [(1, 0x7FFFFFFF), (2, 1)]).reg 1).getLsbD 31 ∧
      ((stateWith [(1, 0x80000000)]).reg 1).getLsbD 31 = ((0xFFFF : Imm16).signExtend 32).getLsbD 31 ∧
      ((stateWith [(1, 0x80000000)]).reg 1 + (0xFFFF : Imm16).signExtend 32).getLsbD 31 ≠
        ((stateWith [(1, 0x80000000)]).reg 1).getLsbD 31 := by decide

/-- A division in range, and the one out of range. -/
theorem witness_SignedDivisionTruncates :
    (stateWith [(1, 7), (2, 0xFFFFFFFE)]).reg 2 ≠ 0 ∧ (stateWith [(1, 0x80000000), (2, 0xFFFFFFFF)]).reg 2 ≠ 0 ∧
      (stateWith [(1, 0x80000000), (2, 0xFFFFFFFF)]).reg 1 = 0x80000000 ∧
      (stateWith [(1, 0x80000000), (2, 0xFFFFFFFF)]).reg 2 = 0xFFFFFFFF := by decide

theorem witness_UnsignedDivisionFloors : (stateWith [(1, 7), (2, 1)]).reg 2 ≠ 0 := by decide

theorem witness_DivisionByZeroKeepsHiAndLo : (stateWith [(1, 7)]).reg 2 = 0 ∧ (stateWith [(1, 7)]).reg 0 = 0 := by
  decide

/-- The first word of the data region, its last word, last halfword and last byte. -/
theorem witness_LoadsInsideRegions :
    (0x10010000 : Word) = (stateWith [(1, 0x10010000)]).reg 1 + (0 : Imm16).signExtend 32 ∧
      inBounds (stateWith [(1, 0x10010000)]) 0x10010000 = true ∧ (0x10010000 : Word).toNat % 4 = 0 ∧
      (0x1010FFFC : Word) = (stateWith [(1, 0x10110000)]).reg 1 + (0xFFFC : Imm16).signExtend 32 ∧
      inBounds (stateWith [(1, 0x10110000)]) 0x1010FFFC = true ∧ (0x1010FFFC : Word).toNat % 4 = 0 ∧
      inBounds (stateWith [(1, 0x10110000)]) 0x1010FFFE = true ∧ (0x1010FFFE : Word).toNat % 2 = 0 ∧
      inBounds (stateWith [(1, 0x10110000)]) 0x1010FFFF = true := by decide

/-- The addresses just below and just above the data region. -/
theorem witness_LoadsOutsideRegionsReceiveZero :
    (0x1000FFFC : Word) = (stateWith [(1, 0x10010000)]).reg 1 + (0xFFFC : Imm16).signExtend 32 ∧
      inBounds (stateWith [(1, 0x10010000)]) 0x1000FFFC = false ∧ (0x1000FFFC : Word).toNat % 4 = 0 ∧
      (0x10110000 : Word) = (stateWith [(1, 0x10110000)]).reg 1 + (0 : Imm16).signExtend 32 ∧
      inBounds (stateWith [(1, 0x10110000)]) 0x10110000 = false ∧ (0x10110000 : Word).toNat % 2 = 0 := by decide

theorem witness_MisalignedAccessWritesNothing :
    (0x10010001 : Word) = (stateWith [(1, 0x10010000)]).reg 1 + (1 : Imm16).signExtend 32 ∧
      (0x10010001 : Word).toNat % 2 ≠ 0 ∧ (0x10010001 : Word).toNat % 4 ≠ 0 ∧
      (0x10010002 : Word) = (stateWith [(1, 0x10010000)]).reg 1 + (2 : Imm16).signExtend 32 ∧
      (0x10010002 : Word).toNat % 4 ≠ 0 := by decide

theorem witness_StoresInsideRegions :
    (0x1010FFFC : Word) = (withData (stateWith [(1, 0x10110000)])).reg 1 + (0xFFFC : Imm16).signExtend 32 ∧
      (withData (stateWith [(1, 0x10110000)])).mem.wf ∧
      inBounds (withData (stateWith [(1, 0x10110000)])) 0x1010FFFC = true ∧ (0x1010FFFC : Word).toNat % 4 = 0 ∧
      (0x1010FFFC : Word).toNat % 2 = 0 := by decide

theorem witness_StoresOutsideRegionsWriteNothing :
    (0x1000FFFC : Word) = (withData (stateWith [(1, 0x10010000)])).reg 1 + (0xFFFC : Imm16).signExtend 32 ∧
      inBounds (withData (stateWith [(1, 0x10010000)])) 0x1000FFFC = false ∧ (0x1000FFFC : Word).toNat % 4 = 0 ∧
      (0x1000FFFC : Word).toNat % 2 = 0 := by decide

/-- The first word of the data region, and its last byte and halfword; after SW, loads at each lane of the word. -/
theorem witness_LoadsSeeTheLastStore :
    (withData (stateWith [(1, 0x10010000), (2, 0xAABBCCDD)])).Inv ∧
      (0x10010000 : Word) = (withData (stateWith [(1, 0x10010000), (2, 0xAABBCCDD)])).reg 1 +
        (0 : Imm16).signExtend 32 ∧
      (0x10010000 : Word).toNat % 4 = 0 ∧ (0x1010FFFE : Word).toNat % 2 = 0 ∧
      inBounds (withData (stateWith [(1, 0x10010000), (2, 0xAABBCCDD)])) 0x10010000 = true ∧
      inBounds (withData (stateWith [(1, 0x10110000)])) 0x1010FFFE = true ∧
      inBounds (withData (stateWith [(1, 0x10110000)])) 0x1010FFFF = true ∧
      (0x1010FFFF : Word) = (withData (stateWith [(1, 0x10110000)])).reg 1 + (0xFFFF : Imm16).signExtend 32 ∧
      ∃ t, exec (.sw 1 2 0) (withData (stateWith [(1, 0x10010000), (2, 0xAABBCCDD)])) = .next t ∧
        decide (t.reg 1 + (0 : Imm16).signExtend 32 = 0x10010000 ∧
          t.reg 1 + (2 : Imm16).signExtend 32 = 0x10010000 + BitVec.ofNat 32 (2 * 1) ∧
          t.reg 1 + (3 : Imm16).signExtend 32 = 0x10010000 + BitVec.ofNat 32 3) = true :=
  ⟨by decide, by decide, by decide, by decide, by decide, by decide, by decide, by decide,
    exec_of_passes (p := fun t =>
      decide (t.reg 1 + (0 : Imm16).signExtend 32 = 0x10010000 ∧
        t.reg 1 + (2 : Imm16).signExtend 32 = 0x10010000 + BitVec.ofNat 32 (2 * 1) ∧
        t.reg 1 + (3 : Imm16).signExtend 32 = 0x10010000 + BitVec.ofNat 32 3)) (by decide)⟩

/-- SW to the next word, SH to its upper half and SB to its last byte. -/
theorem witness_NextFetchSeesTheStore :
    ((stateWith [(1, 0x00400000), (2, 0xC)]).withFetchWord 32 0xAC220004).Inv ∧
      Fetches ((stateWith [(1, 0x00400000), (2, 0xC)]).withFetchWord 32 0xAC220004) (.sw 1 2 4) ∧
      Fetches ((stateWith [(1, 0x00400000), (2, 0xC)]).withFetchWord 32 0xA4220006) (.sh 1 2 6) ∧
      Fetches ((stateWith [(1, 0x00400000), (2, 0xC)]).withFetchWord 32 0xA0220007) (.sb 1 2 7) ∧
      (0x00400004 : Word) = ((stateWith [(1, 0x00400000), (2, 0xC)]).withFetchWord 32 0xAC220004).reg 1 +
        (4 : Imm16).signExtend 32 ∧
      ((stateWith [(1, 0x00400000), (2, 0xC)]).withFetchWord 32 0xAC220004).pc + 4 = 0x00400004 ∧
      (0x00400004 : Word).toNat % 4 = 0 ∧ (0x00400006 : Word).toNat % 2 = 0 ∧
      inBounds ((stateWith [(1, 0x00400000), (2, 0xC)]).withFetchWord 32 0xA0220007) 0x00400007 = true ∧
      fetchable ((stateWith [(1, 0x00400000), (2, 0xC)]).withFetchWord 32 0xAC220004) 0x00400004 = true := by
  unfold Fetches; decide

theorem witness_ReturnResumesAtPcPlusEight : (31 : RegIdx) ≠ 0#5 ∧ (1 : RegIdx) ≠ 0#5 := by decide

theorem witness_BranchesGoToTargetOrNext :
    (0x00420000 : Word) = State.reset.pc + 4#32 + BitVec.ofInt 32 ((0x7FFF : Imm16).toInt * 4) ∧
      (0x003E0004 : Word) = State.reset.pc + 4#32 + BitVec.ofInt 32 ((0x8000 : Imm16).toInt * 4) := by decide

theorem witness_BranchTargetRangeAndAlignment :
    (0 : Word).toNat % 4 = 0 ∧ (0xFFFFFFFC : Word).toNat % 4 = 0 := by decide

/-- The first and the last word of a program that ends where the text region does. -/
theorem witness_LoadProgramPlacesTheWords :
    State.Inv { State.reset with regions := [⟨0x00400000, 0x00400007⟩] } ∧
      0x00400000 + 4 * ([1, 2, 3] : List Word).length ≤ 2 ^ 32 ∧
      inBounds { State.reset with regions := [⟨0x00400000, 0x00400007⟩] }
        (0x00400000#32 + BitVec.ofNat 32 (4 * 0)) = true ∧
      inBounds { State.reset with regions := [⟨0x00400000, 0x00400007⟩] }
        (0x00400000#32 + BitVec.ofNat 32 (4 * 1)) = true ∧
      inBounds { State.reset with regions := [⟨0x00400000, 0x00400007⟩] }
        (0x00400000#32 + BitVec.ofNat 32 (4 * 2)) = false := by decide

theorem witness_HostMemoryRoundTrip :
    (withData State.reset).Inv ∧ inBounds (withData State.reset) 0x1010FFFC = true ∧
      (0x1010FFFC : Word).toNat % 4 = 0 ∧ inBounds (withData State.reset) 0x10110000 = false ∧
      (0x10110000 : Word).toNat % 4 = 0 ∧ (0x10010002 : Word).toNat % 4 ≠ 0 := by decide

theorem witness_HostRegisterAccess : 0 < 32 ∧ 31 < 32 ∧ 32 ≤ 32 ∧ (30 : Nat) ≠ 31 := by decide

theorem witness_HostStepCountsItsCycles : regionsAdmissible State.reset.regions = true := by decide

theorem witness_PlacedWordIsFetched :
    (withData State.reset).Inv ∧ fetchable (withData State.reset) (withData State.reset).pc = true := by decide

end Sys2Proof.Tests
end

section
/-! PROOF. A word of memory as its four bytes in their lanes (20_memory.md R38), for a load and for the fetch. -/

namespace Sys2Proof.Machine

/-- A byte shifted to its lane of a word loses no bit at the top. -/
theorem toNat_byte_shiftLeft (b : Byte) {k : Nat} (hk : k ≤ 24) :
    (b.setWidth 32 <<< k).toNat = b.toNat <<< k := by
  have fits : b.toNat <<< k < 2 ^ 32 :=
    calc b.toNat <<< k = b.toNat * 2 ^ k := Nat.shiftLeft_eq ..
      _ < 2 ^ 8 * 2 ^ 24 := Nat.mul_lt_mul_of_lt_of_le b.isLt (Nat.pow_le_pow_right (by decide) hk) (by decide)
  rw [BitVec.toNat_shiftLeft, BitVec.toNat_setWidth_of_le (by decide), Nat.mod_eq_of_lt fits]

/-- Shifts of 8 nested as in a concatenation of bytes, multiplied out. -/
theorem nested_shiftLeft_or (a b c d : Nat) :
    ((d <<< 8 ||| c) <<< 8 ||| b) <<< 8 ||| a = a ||| b <<< 8 ||| c <<< 16 ||| d <<< 24 := by
  rw [Nat.shiftLeft_or_distrib, Nat.shiftLeft_or_distrib, Nat.shiftLeft_or_distrib, ← Nat.shiftLeft_add,
    ← Nat.shiftLeft_add, ← Nat.shiftLeft_add, Nat.or_comm, Nat.or_comm _ (b <<< 8), Nat.or_comm (d <<< _),
    ← Nat.or_assoc, ← Nat.or_assoc]

/-- The word of four bytes, little-endian, is the bytes shifted to their lanes (R38). -/
theorem wordOfBytes_eq_or_shiftLeft (b0 b1 b2 b3 : Byte) :
    wordOfBytes b0 b1 b2 b3 =
      b0.setWidth 32 ||| b1.setWidth 32 <<< 8 ||| b2.setWidth 32 <<< 16 ||| b3.setWidth 32 <<< 24 := by
  apply BitVec.eq_of_toNat_eq
  calc (wordOfBytes b0 b1 b2 b3).toNat
      = ((b3.toNat <<< 8 ||| b2.toNat) <<< 8 ||| b1.toNat) <<< 8 ||| b0.toNat := by
        rw [wordOfBytes, BitVec.toNat_append, BitVec.toNat_append, BitVec.toNat_append]
    _ = b0.toNat ||| b1.toNat <<< 8 ||| b2.toNat <<< 16 ||| b3.toNat <<< 24 := nested_shiftLeft_or ..
    _ = _ := by
        rw [BitVec.toNat_or, BitVec.toNat_or, BitVec.toNat_or, BitVec.toNat_setWidth_of_le (by decide),
          toNat_byte_shiftLeft b1 (by decide), toNat_byte_shiftLeft b2 (by decide),
          toNat_byte_shiftLeft b3 (by decide)]

/-- FETCH at an aligned pc inside a region brings the word a load reads there, and no report (R68). -/
theorem fetch_inside {s : State} (hal : aligned s.pc .word = true) (hin : inBounds s s.pc = true) :
    fetch s = .word (memRead s s.pc .word) none := by
  rw [fetch_aligned hal, outOfBoundsReport_inside hin]

end Sys2Proof.Machine

open Sys2Proof.Machine

/-- Settles O9: inside a region a load reads `readWord`, whose bytes `wordOfBytes_eq_or_shiftLeft` puts in their
lanes, and the fetch reads what the load does, since no read looks at the pc. -/
theorem wordsAreLittleEndian : Obligations.WordsAreLittleEndian := by
  intro s a hal hin
  refine ⟨?_, fetch_inside (s := { s with pc := a }) hal hin⟩
  rw [memRead_inside_word hin, Memory.readWord, wordOfBytes_eq_or_shiftLeft]

end

section
/-! PROOF. The overlap of the fields of a word, and the word as its fields from bit 31 down (30_encoding.md R55):
adjacent bit ranges are joined one after another, from the top. -/

namespace Sys2Proof

open BitVec (extractLsb'_append_extractLsb'_eq_extractLsb' extractLsb'_eq_self)

/-- Bits 15:11, 10:6 and 5:0 are adjacent, and together they are bits 15:0. -/
theorem imm16_eq_append (w : Word) :
    (fields w).imm16 = (fields w).rd ++ (fields w).shamt ++ (fields w).funct := by
  have downTo6 : (fields w).rd ++ (fields w).shamt = w.extractLsb' 6 (5 + 5) :=
    extractLsb'_append_extractLsb'_eq_extractLsb' rfl
  have downTo0 : w.extractLsb' 6 (5 + 5) ++ (fields w).funct = (fields w).imm16 :=
    extractLsb'_append_extractLsb'_eq_extractLsb' (start₁ := 0) rfl
  rw [downTo6, downTo0]

/-- Bits 25:21, 20:16 and 15:0 are adjacent, and together they are bits 25:0. -/
theorem target26_eq_append (w : Word) :
    (fields w).target26 = (fields w).rs ++ (fields w).rt ++ (fields w).imm16 := by
  have downTo16 : (fields w).rs ++ (fields w).rt = w.extractLsb' 16 (5 + 5) :=
    extractLsb'_append_extractLsb'_eq_extractLsb' rfl
  have downTo0 : w.extractLsb' 16 (5 + 5) ++ (fields w).imm16 = (fields w).target26 :=
    extractLsb'_append_extractLsb'_eq_extractLsb' (start₁ := 0) rfl
  rw [downTo16, downTo0]

/-- The six disjoint fields are adjacent, and together they are bits 31:0. -/
theorem word_eq_append_fields (w : Word) :
    w = (fields w).opcode ++ (fields w).rs ++ (fields w).rt ++ (fields w).rd ++ (fields w).shamt ++
      (fields w).funct := by
  have downTo21 : (fields w).opcode ++ (fields w).rs = w.extractLsb' 21 (6 + 5) :=
    extractLsb'_append_extractLsb'_eq_extractLsb' rfl
  have downTo16 : w.extractLsb' 21 (6 + 5) ++ (fields w).rt = w.extractLsb' 16 (6 + 5 + 5) :=
    extractLsb'_append_extractLsb'_eq_extractLsb' rfl
  have downTo11 : w.extractLsb' 16 (6 + 5 + 5) ++ (fields w).rd = w.extractLsb' 11 (6 + 5 + 5 + 5) :=
    extractLsb'_append_extractLsb'_eq_extractLsb' rfl
  have downTo6 : w.extractLsb' 11 (6 + 5 + 5 + 5) ++ (fields w).shamt = w.extractLsb' 6 (6 + 5 + 5 + 5 + 5) :=
    extractLsb'_append_extractLsb'_eq_extractLsb' rfl
  have downTo0 : w.extractLsb' 6 (6 + 5 + 5 + 5 + 5) ++ (fields w).funct = w.extractLsb' 0 32 :=
    extractLsb'_append_extractLsb'_eq_extractLsb' (start₁ := 0) rfl
  rw [downTo21, downTo16, downTo11, downTo6, downTo0, extractLsb'_eq_self]

end Sys2Proof

open Sys2Proof

/-- Settles O6: the fields are adjacent bit ranges, and joining them from the top gives the whole word, `imm16` and
`target26`. -/
theorem fieldsAreTheBitRangesOfTheWord : Obligations.FieldsAreTheBitRangesOfTheWord :=
  fun w => ⟨word_eq_append_fields w, imm16_eq_append w, target26_eq_append w⟩

end

section
/-! PROOF. The instruction count and the storage of register 0 over EXECUTE, the report's merge and a step
(40_cycle.md R75, R76). -/

namespace Sys2Proof.Machine

@[simp] theorem mergeReport_instructionCount (f : Option FaultReport) (t : State) :
    (mergeReport f t).instructionCount = t.instructionCount := by cases f <;> rfl

@[simp] theorem mergeReport_regs (f : Option FaultReport) (t : State) : (mergeReport f t).regs = t.regs := by
  cases f <;> rfl

@[simp] theorem illegalWord_instructionCount (w : Word) (s : State) :
    (illegalWord w s).instructionCount = s.instructionCount := rfl

@[simp] theorem illegalWord_regs (w : Word) (s : State) : (illegalWord w s).regs = s.regs := rfl

/-- No instruction touches the count: COMMIT alone does (R76). -/
theorem Effect.instructionCount_eq {i : Instr} {s t : State} (e : Effect i s t) :
    t.instructionCount = s.instructionCount := by
  cases e with
  | register | load | link | store => simp
  | hiAndLo | hiOnly | loOnly | jump | halt | fault => rfl

/-- No instruction touches the storage of register 0: a register write goes through `setReg`, which discards a write
of register 0 (R75), and the other effects write no register. -/
theorem Effect.regs_zero_eq {i : Instr} {s t : State} (e : Effect i s t) : t.regs[0] = s.regs[0] := by
  cases e with
  | register | load | link | store => simp
  | hiAndLo | hiOnly | loOnly | jump | halt | fault => rfl

/-- A step of a running core counts, whether it fetched nothing, fetched an illegal word or executed an
instruction. -/
theorem step_counts_of_running {s t : State} (run : s.running = true) (h : step s = .next t) :
    t.instructionCount = s.instructionCount + 1#32 := by
  obtain ⟨-, ⟨halted, -⟩ | ⟨-, ⟨-, rfl⟩ | ⟨-, e, -, rfl⟩ | ⟨-, i, u, -, -, effect, rfl⟩⟩⟩ := step_cases h
  · exact absurd (run.symm.trans halted) (by decide)
  · simp
  · simp
  · simp [effect.instructionCount_eq]

/-- A step leaves the storage of register 0 as it was. -/
theorem step_regs_zero_eq {s t : State} (h : step s = .next t) : t.regs[0] = s.regs[0] := by
  obtain ⟨-, ⟨-, rfl⟩ | ⟨-, ⟨-, rfl⟩ | ⟨-, e, -, rfl⟩ | ⟨-, i, u, -, -, effect, rfl⟩⟩⟩ := step_cases h
  · rfl
  · simp
  · simp
  · simp [effect.regs_zero_eq]

end Sys2Proof.Machine

open Sys2Proof.Machine

/-- Settles O13: a core with an admissible region table always answers a next state, and in a cycle that runs COMMIT
adds 1 to the count, which nothing before it touches. -/
theorem everyRunningCycleCommits : Obligations.EveryRunningCycleCommits :=
  fun _ adm run => ⟨step_answers adm, fun _ => step_counts_of_running run⟩

/-- Settles O18: no instruction and no step touches the storage of register 0, and a read of register 0 is 0 whatever
is stored. -/
theorem registerZeroStaysZero : Obligations.RegisterZeroStaysZero :=
  ⟨State.setReg_zero,
    fun _ _ t zero h => ⟨(effect_of_exec h).regs_zero_eq.trans zero, State.reg_zero t⟩,
    fun _ _ zero h => (step_regs_zero_eq h).trans zero⟩

end

section
/-! PROOF. The trapping additions (41_alu.md R80 to R82): what a register write and a report leave unchanged, signed
overflow in each of its forms, and the two outcomes of `trappingAdd`. -/

namespace Sys2Proof.Machine

/-! ## The effect of a register write and of a report -/

theorem onlyRegWritten_setReg_template (d : RegIdx) (v : Word) (s : State) :
    OnlyRegWritten d v s ((template s).setReg d v) :=
  ⟨State.reg_setReg_self .., fun _ ne => State.reg_setReg_of_ne _ ne v, ⟨State.setReg_hi .., State.setReg_lo ..⟩,
    fun _ => congrArg (Memory.read · _) (State.setReg_mem ..), State.setReg_running ..,
    State.setReg_instructionCount .., State.setReg_programWordCount .., State.setReg_regions ..,
    State.setReg_program ..⟩

theorem nothingWritten_reportFault_template (s : State) (r : FaultReport) :
    NothingWritten s (reportFault (template s) r) :=
  ⟨fun _ => rfl, ⟨rfl, rfl⟩, fun _ => rfl, rfl, rfl, rfl, rfl, rfl⟩

/-- An instruction that answers with `writeResult` writes its one register and reports nothing. -/
theorem writesRegister_of_exec_eq {i : Instr} {s : State} {d : RegIdx} {v : Word}
    (h : exec i s = writeResult d v s) : WritesRegister i s d v :=
  ⟨_, h, State.setReg_pc .., State.setReg_report .., onlyRegWritten_setReg_template d v s⟩

/-- An instruction that answers with the template and its own report writes nothing. -/
theorem reportsAndWritesNothing_of_exec_eq {i : Instr} {s : State} {code : FaultCode} {word : Word}
    (h : exec i s = .next (reportFault (template s) (instructionReport code s.pc word))) :
    ReportsAndWritesNothing i s code :=
  ⟨_, _, h, rfl, rfl, rfl, rfl, nothingWritten_reportFault_template s _⟩

/-! ## Signed overflow (R80) -/

theorem addOverflows_iff (a b : Word) :
    addOverflows a b = true ↔ a.toInt + b.toInt < -2 ^ 31 ∨ a.toInt + b.toInt > 2 ^ 31 - 1 := by
  rw [addOverflows, Bool.or_eq_true, decide_eq_true_iff, decide_eq_true_iff]

theorem addOverflows_eq_false {a b : Word} (low : -2 ^ 31 ≤ a.toInt + b.toInt)
    (high : a.toInt + b.toInt ≤ 2 ^ 31 - 1) : addOverflows a b = false := by
  rw [Bool.eq_false_iff, ne_eq, addOverflows_iff]
  omega

theorem addOverflows_eq_saddOverflow (a b : Word) : addOverflows a b = BitVec.saddOverflow a b := by
  rw [Bool.eq_iff_iff, addOverflows_iff, BitVec.saddOverflow, Bool.or_eq_true, decide_eq_true_iff,
    decide_eq_true_iff]
  omega

/-- Overflow as the top bits show it: the library's account of `BitVec.saddOverflow`. -/
theorem addOverflows_iff_sign (a b : Word) :
    addOverflows a b = true ↔ a.getLsbD 31 = b.getLsbD 31 ∧ (a + b).getLsbD 31 ≠ a.getLsbD 31 := by
  simp [addOverflows_eq_saddOverflow, BitVec.saddOverflow_eq, BitVec.msb_eq_getLsbD_last]

/-- Sign extension keeps the exact value of an immediate (R9). -/
theorem signedImmediate_toInt (imm : Imm16) : (signedImmediate imm).toInt = imm.toInt :=
  BitVec.toInt_signExtend_of_le (by decide)

/-! ## The two outcomes of a trapping addition -/

theorem trappingAdd_of_overflow {a b : Word} (ovf : addOverflows a b = true) (word : Word) (d : RegIdx) (s : State) :
    trappingAdd word d a b s =
      .next (reportFault (template s) (instructionReport .arithmeticOverflow s.pc word)) := by
  rw [trappingAdd_eq, if_pos ovf]

theorem trappingAdd_of_fits {a b : Word} (fits : addOverflows a b = false) (word : Word) (d : RegIdx) (s : State) :
    trappingAdd word d a b s = writeResult d (a + b) s := by
  rw [trappingAdd_eq, fits, writeResult_eq, if_neg Bool.false_ne_true]

theorem exec_add (rs rt rd : RegIdx) (shamt : BitVec 5) (s : State) :
    exec (.add rs rt rd shamt) s = trappingAdd (encode (.add rs rt rd shamt)) rd (s.reg rs) (s.reg rt) s := rfl

theorem exec_addi (rs rt : RegIdx) (imm : Imm16) (s : State) :
    exec (.addi rs rt imm) s = trappingAdd (encode (.addi rs rt imm)) rt (s.reg rs) (signedImmediate imm) s := rfl

theorem add_reports_of_overflow {rs rt : RegIdx} {s : State} (ovf : addOverflows (s.reg rs) (s.reg rt) = true)
    (rd : RegIdx) (shamt : BitVec 5) : ReportsAndWritesNothing (.add rs rt rd shamt) s .arithmeticOverflow :=
  reportsAndWritesNothing_of_exec_eq ((exec_add ..).trans (trappingAdd_of_overflow ovf ..))

theorem add_writes_of_fits {rs rt : RegIdx} {s : State} (fits : addOverflows (s.reg rs) (s.reg rt) = false)
    (rd : RegIdx) (shamt : BitVec 5) : WritesRegister (.add rs rt rd shamt) s rd (s.reg rs + s.reg rt) :=
  writesRegister_of_exec_eq ((exec_add ..).trans (trappingAdd_of_fits fits ..))

theorem addi_reports_of_overflow {rs : RegIdx} {imm : Imm16} {s : State}
    (ovf : addOverflows (s.reg rs) (signedImmediate imm) = true) (rt : RegIdx) :
    ReportsAndWritesNothing (.addi rs rt imm) s .arithmeticOverflow :=
  reportsAndWritesNothing_of_exec_eq ((exec_addi ..).trans (trappingAdd_of_overflow ovf ..))

theorem addi_writes_of_fits {rs : RegIdx} {imm : Imm16} {s : State}
    (fits : addOverflows (s.reg rs) (signedImmediate imm) = false) (rt : RegIdx) :
    WritesRegister (.addi rs rt imm) s rt (s.reg rs + signedImmediate imm) :=
  writesRegister_of_exec_eq ((exec_addi ..).trans (trappingAdd_of_fits fits ..))

end Sys2Proof.Machine

open Sys2Proof.Machine

/-- Settles O27: the two ranges are those of `addOverflows`, and each gives one outcome of `trappingAdd`. -/
theorem addTrapsOnSignedOverflow : Obligations.AddTrapsOnSignedOverflow :=
  fun _ _ rd shamt _ =>
    ⟨rfl, fun out => add_reports_of_overflow ((addOverflows_iff ..).mpr out) rd shamt,
      fun low high => add_writes_of_fits (addOverflows_eq_false low high) rd shamt⟩

/-- Settles O28: as for ADD, with the immediate's exact value in place of its sign extension's. -/
theorem addImmediateTrapsOnSignedOverflow : Obligations.AddImmediateTrapsOnSignedOverflow := by
  intro rs rt imm s
  rw [← signedImmediate_toInt imm]
  exact ⟨rfl, fun out => addi_reports_of_overflow ((addOverflows_iff ..).mpr out) rt,
    fun low high => addi_writes_of_fits (addOverflows_eq_false low high) rt⟩

/-- Settles O29: both forms of overflow are `addOverflows`, which makes ADD and ADDI report. -/
theorem overflowIsEqualSignsAndAnotherSum : Obligations.OverflowIsEqualSignsAndAnotherSum :=
  ⟨fun a b => (addOverflows_iff a b).symm.trans (addOverflows_iff_sign a b),
    fun _ _ rd shamt _ signs other =>
      add_reports_of_overflow ((addOverflows_iff_sign ..).mpr ⟨signs, other⟩) rd shamt,
    fun _ rt _ _ signs other =>
      addi_reports_of_overflow ((addOverflows_iff_sign ..).mpr ⟨signs, other⟩) rt⟩

end

section
/-! PROOF. The division by zero (42_muldiv.md R105): the reporting outcome of `divideInto`, reached by DIV and DIVU
alike. -/

namespace Sys2Proof.Machine

theorem divideInto_of_zero {divisor : Word} (zero : divisor = 0#32) (word quotient remainder : Word) (s : State) :
    divideInto word divisor quotient remainder s =
      .next (reportFault (template s) (instructionReport .divideByZero s.pc word)) := by
  rw [divideInto_eq, if_pos zero]

theorem exec_div (rs rt rd : RegIdx) (shamt : BitVec 5) (s : State) :
    exec (.div rs rt rd shamt) s =
      divideInto (encode (.div rs rt rd shamt)) (s.reg rt) (signedQuotient (s.reg rs) (s.reg rt))
        (signedRemainder (s.reg rs) (s.reg rt)) s := rfl

theorem exec_divu (rs rt rd : RegIdx) (shamt : BitVec 5) (s : State) :
    exec (.divu rs rt rd shamt) s =
      divideInto (encode (.divu rs rt rd shamt)) (s.reg rt) (unsignedQuotient (s.reg rs) (s.reg rt))
        (unsignedRemainder (s.reg rs) (s.reg rt)) s := rfl

/-- An instruction that divides by zero, whatever its quotient and remainder would be, reports and writes nothing. -/
theorem divideByZero_reports_of_exec_eq {i : Instr} {s : State} {word divisor quotient remainder : Word}
    (h : exec i s = divideInto word divisor quotient remainder s) (zero : divisor = 0#32) :
    ReportsAndWritesNothing i s .divideByZero :=
  reportsAndWritesNothing_of_exec_eq (h.trans (divideInto_of_zero zero ..))

end Sys2Proof.Machine

open Sys2Proof.Machine

/-- Settles O40: DIV and DIVU both answer with `divideInto` of the divisor in `rt`, which for 0 only reports. -/
theorem divisionByZeroKeepsHiAndLo : Obligations.DivisionByZeroKeepsHiAndLo :=
  fun _ _ _ _ _ zero =>
    ⟨divideByZero_reports_of_exec_eq (exec_div ..) zero, divideByZero_reports_of_exec_eq (exec_divu ..) zero⟩

end

section
/-! PROOF. The jumps (44_control.md R125, R127): what `jumpTo` and `jumpAndLink` leave unchanged, the number of J and
JAL's target, and a return through the register that holds the link. -/

namespace Sys2Proof.Machine

/-! ## The effect of a jump and of a jump that links -/

theorem nothingWritten_setPc_template (s : State) (target : Word) : NothingWritten s ((template s).setPc target) :=
  ⟨fun _ => rfl, ⟨rfl, rfl⟩, fun _ => rfl, rfl, rfl, rfl, rfl, rfl⟩

/-- A write of the pc on top of a register write is no other change. -/
theorem OnlyRegWritten.setPc {d : RegIdx} {v : Word} {s t : State} (h : OnlyRegWritten d v s t) (target : Word) :
    OnlyRegWritten d v s (t.setPc target) := h

theorem onlyMovesPc_of_exec_eq {i : Instr} {s : State} {target : Word} (h : exec i s = jumpTo target s) :
    OnlyMovesPc i s target :=
  ⟨_, h.trans (jumpTo_eq ..), State.setPc_pc .., State.setPc_report .., nothingWritten_setPc_template s target⟩

theorem jumpsAndLinks_of_exec_eq {i : Instr} {s : State} {target : Word} {d : RegIdx}
    (h : exec i s = jumpAndLink d target s) : JumpsAndLinks i s target d (s.pc + 8#32) :=
  ⟨_, h.trans (jumpAndLink_eq ..), State.setPc_pc .., State.setReg_report ..,
    (onlyRegWritten_setReg_template d (linkAddress s.pc) s).setPc target⟩

theorem exec_j (target : Target26) (s : State) : exec (.j target) s = jumpTo (jumpTarget s.pc target) s := rfl

theorem exec_jal (target : Target26) (s : State) :
    exec (.jal target) s = jumpAndLink linkRegister (jumpTarget s.pc target) s := rfl

theorem exec_jr (rs rt rd : RegIdx) (shamt : BitVec 5) (s : State) :
    exec (.jr rs rt rd shamt) s = jumpTo (s.reg rs) s := rfl

theorem exec_jalr (rs rt rd : RegIdx) (shamt : BitVec 5) (s : State) :
    exec (.jalr rs rt rd shamt) s = jumpAndLink rd (s.reg rs) s := rfl

/-- JR through the register that a jump has just linked in goes to the link value. -/
theorem jr_resumes_at_link {i : Instr} {s : State} {target link : Word} {d : RegIdx}
    (call : JumpsAndLinks i s target d link) (ne : d ≠ 0#5) (rt rd : RegIdx) (shamt : BitVec 5) :
    ∃ t u, exec i s = .next t ∧ t.reg d = link ∧ exec (.jr d rt rd shamt) t = .next u ∧ u.pc = link := by
  obtain ⟨t, run, -, -, linked, -⟩ := call
  rw [if_neg ne] at linked
  obtain ⟨u, ret, resumed, -⟩ := onlyMovesPc_of_exec_eq (exec_jr d rt rd shamt t)
  exact ⟨t, u, run, linked, ret, resumed.trans linked⟩

/-! ## The target of J and JAL (R127) -/

/-- The target as a number: its 256 MiB segment, and four times the index in it. -/
theorem jumpTarget_toNat (pc : Word) (target : Target26) :
    (jumpTarget pc target).toNat = (pc + 4#32).toNat / 2 ^ 28 * 2 ^ 28 + target.toNat * 4 := by
  have segment : ((pc + 4#32).extractLsb' 28 4).toNat = (pc + 4#32).toNat / 2 ^ 28 := by
    rw [BitVec.extractLsb'_toNat, Nat.shiftRight_eq_div_pow, Nat.mod_eq_of_lt (by omega)]
  calc (jumpTarget pc target).toNat
      = (((pc + 4#32).toNat / 2 ^ 28) <<< 26 ||| target.toNat) <<< 2 := by
        rw [jumpTarget, BitVec.toNat_append, BitVec.toNat_append, segment]
        exact Nat.or_zero _
    _ = ((pc + 4#32).toNat / 2 ^ 28 * 2 ^ 26 + target.toNat) * 2 ^ 2 := by
        rw [← Nat.shiftLeft_add_eq_or_of_lt target.isLt, Nat.shiftLeft_eq, Nat.shiftLeft_eq]
    _ = _ := by omega

theorem jumpTarget_toNat_mod_four (pc : Word) (target : Target26) : (jumpTarget pc target).toNat % 4 = 0 := by
  rw [jumpTarget_toNat]
  omega

theorem jumpTarget_segment (pc : Word) (target : Target26) :
    (jumpTarget pc target).toNat / 2 ^ 28 = (pc + 4#32).toNat / 2 ^ 28 := by
  have index : target.toNat < 2 ^ 26 := target.isLt
  rw [jumpTarget_toNat]
  omega

end Sys2Proof.Machine

open Sys2Proof.Machine

/-- Settles O52: JAL and JALR link `pc + 8`, in a register other than register 0, and JR through it resumes there. -/
theorem returnResumesAtPcPlusEight : Obligations.ReturnResumesAtPcPlusEight :=
  ⟨fun _ rt rd shamt _ =>
      jr_resumes_at_link (jumpsAndLinks_of_exec_eq (exec_jal ..)) (by decide) rt rd shamt,
    fun _ _ _ rt' rd' _ shamt' _ ne =>
      jr_resumes_at_link (jumpsAndLinks_of_exec_eq (exec_jalr ..)) ne rt' rd' shamt'⟩

/-- Settles O50: J and JAL go to `jumpTarget`, whose number is the segment of `pc + 4` and a multiple of 4 in it. -/
theorem jumpsStayInTheSegment : Obligations.JumpsStayInTheSegment :=
  fun target s =>
    ⟨onlyMovesPc_of_exec_eq (exec_j ..), jumpsAndLinks_of_exec_eq (exec_jal ..),
      jumpTarget_toNat_mod_four s.pc target, jumpTarget_segment s.pc target⟩

end

section
/-! PROOF. The cycle of an illegal word (45_system.md R141): a running core runs `cycle`, FETCH at a fetchable pc brings
the word in memory, and a word that does not decode is answered with `illegalWord`. -/

namespace Sys2Proof.Machine

theorem step_eq_cycle {s : State} (adm : regionsAdmissible s.regions = true) (run : s.running = true) :
    step s = cycle s := by
  rw [step, stepOnce, if_pos adm, if_pos run]

/-- FETCH at a fetchable pc brings the word in memory and no report (R68). -/
theorem fetch_of_fetchable {s : State} (h : fetchable s s.pc = true) :
    fetch s = .word (s.mem.readWord s.pc.toNat) none := by
  obtain ⟨al, inside⟩ := (Bool.and_eq_true ..).mp h
  rw [fetch_inside al inside, memRead_inside_word inside]

/-- The cycle of a word that does not decode: no fetch report is merged, the illegal word's is the one committed. -/
theorem cycle_of_illegal {s : State} {w : Word} {fetchSays : Option FaultReport} {e : DecodeError}
    (fetched : fetch s = .word w fetchSays) (illegal : decodeWord w = .error e) :
    cycle s = .next (commit (illegalWord w s)) := by
  simp only [cycle, fetched, illegal]

/-- All that the commit of an illegal word changes: the pc, the count and the report. -/
theorem commit_illegalWord (w : Word) (s : State) :
    commit (illegalWord w s) =
      { s with
        pc := s.pc + 4#32
        instructionCount := s.instructionCount + 1#32
        report := some (instructionReport .illegalInstruction s.pc w) } := rfl

/-- R62(c): opcode 1 with rt = 2. -/
theorem decodeWord_regimm_rt_two : decodeWord 0x04220003#32 = .error (.illegalSubOpcode 2#5) := by decide

/-- R62(b): opcode 0 with funct 4. -/
theorem decodeWord_funct_four : decodeWord 0x00000004#32 = .error (.illegalFunct 4#6) := by decide

end Sys2Proof.Machine

open Sys2Proof.Machine

/-- Settles O12: the step is the cycle of the word in memory at the pc, which commits `illegalWord`; each example word
has the decoding error of its case of R62. -/
theorem illegalWordOnlyReports : Obligations.IllegalWordOnlyReports := by
  refine ⟨fun s e adm run canFetch illegal => ?_, ⟨_, decodeWord_regimm_rt_two⟩, ⟨_, decodeWord_funct_four⟩⟩
  rw [step_eq_cycle adm run, cycle_of_illegal (fetch_of_fetchable canFetch) illegal, commit_illegalWord,
    instructionReport]

end

section
/-! PROOF. The round trip of instructions and words (30_encoding.md R54 to R61): what the decoder reads from a word of
each format, the four bytes of a word, and, the other way, the word that the fields of a decoded word make. -/

namespace Sys2Proof

/-! ## Decoding an assembled word

Each format's own fields are known; the fields that overlap them are whatever they are. -/

theorem Fields.ext_of_eq {f g : Fields} (opcode : f.opcode = g.opcode) (rs : f.rs = g.rs) (rt : f.rt = g.rt)
    (rd : f.rd = g.rd) (shamt : f.shamt = g.shamt) (funct : f.funct = g.funct) (imm16 : f.imm16 = g.imm16)
    (target26 : f.target26 = g.target26) : f = g := by
  cases f
  cases g
  simp_all

theorem decodeWord_rWord (rs rt rd : RegIdx) (shamt : BitVec 5) (funct : BitVec 6) :
    decodeWord (rWord rs rt rd shamt funct) =
      decodeFields { fields (rWord rs rt rd shamt funct) with
        opcode := 0b000000#6, rs := rs, rt := rt, rd := rd, shamt := shamt, funct := funct } := by
  obtain ⟨hop, hrs, hrt, hrd, hshamt, hfunct⟩ := fields_rWord rs rt rd shamt funct
  exact congrArg decodeFields (Fields.ext_of_eq hop hrs hrt hrd hshamt hfunct rfl rfl)

theorem decodeWord_iWord (opcode : BitVec 6) (rs rt : RegIdx) (imm : Imm16) :
    decodeWord (iWord opcode rs rt imm) =
      decodeFields { fields (iWord opcode rs rt imm) with opcode := opcode, rs := rs, rt := rt, imm16 := imm } := by
  obtain ⟨hop, hrs, hrt, himm⟩ := fields_iWord opcode rs rt imm
  exact congrArg decodeFields (Fields.ext_of_eq hop hrs hrt rfl rfl rfl himm rfl)

theorem decodeWord_jWord (opcode : BitVec 6) (target : Target26) :
    decodeWord (jWord opcode target) =
      decodeFields { fields (jWord opcode target) with opcode := opcode, target26 := target } := by
  obtain ⟨hop, htarget⟩ := fields_jWord opcode target
  exact congrArg decodeFields (Fields.ext_of_eq hop rfl rfl rfl rfl rfl rfl htarget)

theorem decodeWord_syscallWord (ignored : BitVec 20) :
    decodeWord (syscallWord ignored) = .ok (.syscall ignored) := by
  obtain ⟨hop, hfunct, bits⟩ := fields_syscallWord ignored
  have dispatched : decodeWord (syscallWord ignored) =
      decodeFields { fields (syscallWord ignored) with opcode := 0b000000#6, funct := 0b001100#6 } :=
    congrArg decodeFields (Fields.ext_of_eq hop rfl rfl rfl rfl hfunct rfl rfl)
  exact dispatched.trans (congrArg (fun b => Except.ok (Instr.syscall b)) bits)

/-- The word of an instruction decodes to the instruction: in its format, the decoder's dispatch on the opcode and on
funct or rt is a computation. -/
theorem decodeWord_encode (i : Instr) : decodeWord (encode i) = .ok i := by
  cases i with
  | add | addu | sub | subu | and | or | xor | nor | sll | srl | sra | slt | sltu | mult | multu | div | divu | mfhi
  | mflo | mthi | mtlo | jr | jalr => exact decodeWord_rWord ..
  | addi | addiu | andi | ori | xori | slti | sltiu | lui | lb | lh | lw | lbu | lhu | sb | sh | sw | beq | bne | blez
  | bgtz | bltz | bgez => exact decodeWord_iWord ..
  | j | jal => exact decodeWord_jWord ..
  | syscall ignored => exact decodeWord_syscallWord ignored

/-- The four bytes of a word that decodes are decoded to the same instruction, and the bytes after them are left
(R64). -/
theorem decodeBytes_bytesOfWord_append {w : Word} {i : Instr} (h : decodeWord w = .ok i) (rest : List Byte) :
    decodeBytes (bytesOfWord w ++ rest) = .ok (i, rest) := by
  simp only [bytesOfWord, List.cons_append, List.nil_append, decodeBytes, Machine.wordOfBytes_bytes, h]

/-! ## Encoding what a word decodes to -/

theorem rWord_of_selected {w : Word} {funct : BitVec 6} (opcode : (fields w).opcode = 0b000000#6)
    (selected : (fields w).funct = funct) :
    rWord (fields w).rs (fields w).rt (fields w).rd (fields w).shamt funct = w :=
  selected ▸ rWord_fields opcode

theorem iWord_of_selected {w : Word} {opcode : BitVec 6} (selected : (fields w).opcode = opcode) :
    iWord opcode (fields w).rs (fields w).rt (fields w).imm16 = w :=
  selected ▸ iWord_fields w

theorem jWord_of_selected {w : Word} {opcode : BitVec 6} (selected : (fields w).opcode = opcode) :
    jWord opcode (fields w).target26 = w :=
  selected ▸ jWord_fields w

theorem encode_of_decodeFunct {w : Word} {i : Instr} (opcode : (fields w).opcode = 0b000000#6)
    (h : decodeFunct (fields w) = .ok i) : encode i = w := by
  unfold decodeFunct at h
  split at h <;> rename_i selected <;> cases h
  -- the sixth funct is SYSCALL's, whose fields are kept as one
  case h_6 => exact (syscallWord_ignoredBits _).trans (rWord_of_selected opcode selected)
  all_goals exact rWord_of_selected opcode selected

theorem encode_of_decodeSubOpcode {w : Word} {i : Instr} (opcode : (fields w).opcode = 0b000001#6)
    (h : decodeSubOpcode (fields w) = .ok i) : encode i = w := by
  unfold decodeSubOpcode at h
  split at h <;> rename_i selected <;> cases h
  all_goals
    have word := iWord_of_selected opcode
    rwa [selected] at word

theorem encode_of_decodeWord {w : Word} {i : Instr} (h : decodeWord w = .ok i) : encode i = w := by
  unfold decodeWord decodeFields at h
  split at h <;> rename_i selected
  -- the first four opcodes lead to the two families with a second selector and to J and JAL
  case h_1 => exact encode_of_decodeFunct selected h
  case h_2 => exact encode_of_decodeSubOpcode selected h
  all_goals cases h
  case h_3 | h_4 => exact jWord_of_selected selected
  all_goals exact iWord_of_selected selected

end Sys2Proof

open Sys2Proof

/-- Settles O1: the word decodes by its format's fields, and its bytes are decoded as the word. -/
theorem decodeInvertsEncode : Obligations.DecodeInvertsEncode :=
  fun i rest => ⟨rfl, decodeWord_encode i, decodeBytes_bytesOfWord_append (decodeWord_encode i) rest⟩

/-- Settles O2: the selected opcode and funct or rt, put together with the other fields, are the whole word. -/
theorem encodeInvertsDecode : Obligations.EncodeInvertsDecode :=
  fun _ _ => encode_of_decodeWord

end

section
/-! PROOF. The opcode table and the illegal words (40_cycle.md R74, 30_encoding.md R61, R62): the decoder dispatches on
the selector fields alone, so each row's own pattern, and each value of a selector field, stands for all words. -/

namespace Sys2Proof

/-! ## The decoder dispatches on the selector fields -/

/-- What the decoder makes of a word up to the fields that are not selectors: the mnemonic or the error. -/
def mnemonicOf (f : Fields) : Except DecodeError String := (decodeFields f).map Instr.mnemonic

/-- The mnemonic depends on opcode, on funct under opcode 0 and on rt under opcode 1 only. -/
theorem mnemonicOf_congr {f g : Fields} (opcode : f.opcode = g.opcode)
    (funct : f.opcode = 0b000000#6 → f.funct = g.funct) (rt : f.opcode = 0b000001#6 → f.rt = g.rt) :
    mnemonicOf f = mnemonicOf g := by
  unfold mnemonicOf decodeFields
  rw [← opcode]
  split <;> rename_i selected
  case h_1 =>
    unfold decodeFunct
    rw [← funct selected]
    split <;> rfl
  case h_2 =>
    unfold decodeSubOpcode
    rw [← rt selected]
    split <;> rfl
  all_goals rfl

theorem mnemonicOf_fields_eq_ok {w : Word} {name : String} :
    mnemonicOf (fields w) = .ok name ↔ ∃ i, decodeWord w = .ok i ∧ i.mnemonic = name := by
  unfold mnemonicOf decodeWord
  cases decodeFields (fields w) <;> simp [Except.map]

theorem exists_decodeWord_error_iff (w : Word) :
    (∃ e, decodeWord w = .error e) ↔ (mnemonicOf (fields w)).isOk = false := by
  unfold mnemonicOf decodeWord
  cases decodeFields (fields w) <;> simp [Except.map, Except.isOk, Except.toBool]

/-! ## The rows of the table -/

/-- The bits that a row's mask covers are those of its pattern in every word that the row selects. -/
theorem extractLsb'_of_selects {r : OpcodeRow} {w : Word} (h : r.selects w) {start len : Nat}
    (covered : r.mask.extractLsb' start len = BitVec.allOnes len) :
    w.extractLsb' start len = r.pattern.extractLsb' start len := by
  rw [← h, BitVec.extractLsb'_and, covered, BitVec.and_allOnes]

/-- Each row's mask covers the selector fields of its pattern (R61). -/
theorem mask_covers_selectors : ∀ r ∈ opcodeTable,
    r.mask.extractLsb' 26 6 = BitVec.allOnes 6 ∧
      (r.pattern.extractLsb' 26 6 = 0b000000#6 → r.mask.extractLsb' 0 6 = BitVec.allOnes 6) ∧
      (r.pattern.extractLsb' 26 6 = 0b000001#6 → r.mask.extractLsb' 16 5 = BitVec.allOnes 5) := by
  decide

/-- Each row's pattern decodes to an instruction of the row's name. -/
theorem mnemonicOf_pattern : ∀ r ∈ opcodeTable, mnemonicOf (fields r.pattern) = .ok r.mnemonic := by
  decide

theorem opcodeTable_mnemonics_nodup : (opcodeTable.map OpcodeRow.mnemonic).Nodup := by
  decide

theorem mnemonicOf_of_selects {r : OpcodeRow} (hr : r ∈ opcodeTable) {w : Word} (h : r.selects w) :
    mnemonicOf (fields w) = .ok r.mnemonic := by
  obtain ⟨opcode, funct, rt⟩ := mask_covers_selectors r hr
  have sameOpcode : (fields w).opcode = (fields r.pattern).opcode := extractLsb'_of_selects h opcode
  rw [← mnemonicOf_pattern r hr]
  exact mnemonicOf_congr sameOpcode (fun zero => extractLsb'_of_selects h (funct (sameOpcode.symm.trans zero)))
    (fun one => extractLsb'_of_selects h (rt (sameOpcode.symm.trans one)))

theorem row_eq_of_mnemonic_eq {r q : OpcodeRow} (hr : r ∈ opcodeTable) (hq : q ∈ opcodeTable)
    (same : r.mnemonic = q.mnemonic) : r = q :=
  List.inj_on_of_nodup_map opcodeTable_mnemonics_nodup hr hq same

/-- The word of every instruction has the selector bits of the row of its name (R61). -/
theorem selector (i : Instr) : Laws.Selector.Statement i := by
  cases i with
  | add => exact Laws.Selector.add ..
  | addi => exact Laws.Selector.addi ..
  | addu => exact Laws.Selector.addu ..
  | addiu => exact Laws.Selector.addiu ..
  | sub => exact Laws.Selector.sub ..
  | subu => exact Laws.Selector.subu ..
  | and => exact Laws.Selector.and ..
  | andi => exact Laws.Selector.andi ..
  | or => exact Laws.Selector.or ..
  | ori => exact Laws.Selector.ori ..
  | xor => exact Laws.Selector.xor ..
  | xori => exact Laws.Selector.xori ..
  | nor => exact Laws.Selector.nor ..
  | sll => exact Laws.Selector.sll ..
  | srl => exact Laws.Selector.srl ..
  | sra => exact Laws.Selector.sra ..
  | slt => exact Laws.Selector.slt ..
  | slti => exact Laws.Selector.slti ..
  | sltu => exact Laws.Selector.sltu ..
  | sltiu => exact Laws.Selector.sltiu ..
  | lui => exact Laws.Selector.lui ..
  | mult => exact Laws.Selector.mult ..
  | multu => exact Laws.Selector.multu ..
  | div => exact Laws.Selector.div ..
  | divu => exact Laws.Selector.divu ..
  | mfhi => exact Laws.Selector.mfhi ..
  | mflo => exact Laws.Selector.mflo ..
  | mthi => exact Laws.Selector.mthi ..
  | mtlo => exact Laws.Selector.mtlo ..
  | lb => exact Laws.Selector.lb ..
  | lh => exact Laws.Selector.lh ..
  | lw => exact Laws.Selector.lw ..
  | lbu => exact Laws.Selector.lbu ..
  | lhu => exact Laws.Selector.lhu ..
  | sb => exact Laws.Selector.sb ..
  | sh => exact Laws.Selector.sh ..
  | sw => exact Laws.Selector.sw ..
  | j => exact Laws.Selector.j ..
  | jal => exact Laws.Selector.jal ..
  | jr => exact Laws.Selector.jr ..
  | jalr => exact Laws.Selector.jalr ..
  | beq => exact Laws.Selector.beq ..
  | bne => exact Laws.Selector.bne ..
  | blez => exact Laws.Selector.blez ..
  | bgtz => exact Laws.Selector.bgtz ..
  | bltz => exact Laws.Selector.bltz ..
  | bgez => exact Laws.Selector.bgez ..
  | syscall => exact Laws.Selector.syscall ..

/-! ## The illegal values of each selector field (R62) -/

theorem illegalOpcode_iff : ∀ opcode : BitVec 6, opcode ≠ 0b000000#6 → opcode ≠ 0b000001#6 →
    ((mnemonicOf ⟨opcode, 0, 0, 0, 0, 0, 0, 0⟩).isOk = false ↔
      (0x10 ≤ opcode.toNat ∧ opcode.toNat ≤ 0x1F) ∨
        opcode.toNat ∈ [0x22, 0x26, 0x27, 0x2A] ∨ 0x2C ≤ opcode.toNat) := by
  decide

theorem illegalFunct_iff : ∀ funct : BitVec 6,
    ((mnemonicOf ⟨0b000000#6, 0, 0, 0, 0, funct, 0, 0⟩).isOk = false ↔
      funct.toNat ∈
          [0x01, 0x04, 0x05, 0x06, 0x07, 0x0A, 0x0B, 0x0D, 0x0E, 0x0F, 0x14, 0x15, 0x16, 0x17,
           0x1C, 0x1D, 0x1E, 0x1F, 0x28, 0x29] ∨ 0x2C ≤ funct.toNat) := by
  decide

theorem illegalSubOpcode_iff : ∀ rt : RegIdx,
    ((mnemonicOf ⟨0b000001#6, 0, rt, 0, 0, 0, 0, 0⟩).isOk = false ↔ rt ≠ 0#5 ∧ rt ≠ 1#5) := by
  decide

end Sys2Proof

open Sys2Proof

/-- Settles O3: a decoded word is its instruction's encoding, which the row of the name selects; a row that selects a
word gives it the mnemonic of the row's own pattern; and a mnemonic has one row. -/
theorem decoderAgreesWithOpcodeTable : Obligations.DecoderAgreesWithOpcodeTable := by
  refine fun w => ⟨fun i decoded => ?_, fun r hr selects => ?_, fun r hr q hq selects selects' => ?_⟩
  · rw [← encode_of_decodeWord decoded]
    exact selector i
  · exact mnemonicOf_fields_eq_ok.mp (mnemonicOf_of_selects hr selects)
  · have same : Except.ok r.mnemonic = .ok q.mnemonic :=
      (mnemonicOf_of_selects hr selects).symm.trans (mnemonicOf_of_selects hq selects')
    exact row_eq_of_mnemonic_eq hr hq (Except.ok.inj same)

/-- Settles O4: whether a word decodes depends on its selector fields, and each field's values are checked. -/
theorem illegalWordsAreExactlyTheListed : Obligations.IllegalWordsAreExactlyTheListed := by
  intro w
  rw [exists_decodeWord_error_iff]
  by_cases zero : (fields w).opcode = 0b000000#6
  · have selectors : mnemonicOf (fields w) = mnemonicOf ⟨0b000000#6, 0, 0, 0, 0, (fields w).funct, 0, 0⟩ :=
      mnemonicOf_congr zero (fun _ => rfl) (fun one => absurd (zero.symm.trans one) (by decide))
    rw [selectors, illegalFunct_iff, show w.extractLsb' 26 6 = _ from zero]
    simp [fields]
  · by_cases one : (fields w).opcode = 0b000001#6
    · have selectors : mnemonicOf (fields w) = mnemonicOf ⟨0b000001#6, 0, (fields w).rt, 0, 0, 0, 0, 0⟩ :=
        mnemonicOf_congr one (fun eq => absurd eq zero) (fun _ => rfl)
      rw [selectors, illegalSubOpcode_iff, show w.extractLsb' 26 6 = _ from one]
      simp [fields]
    · have selectors : mnemonicOf (fields w) = mnemonicOf ⟨(fields w).opcode, 0, 0, 0, 0, 0, 0, 0⟩ :=
        mnemonicOf_congr rfl (fun eq => absurd eq zero) (fun eq => absurd eq one)
      rw [selectors, illegalOpcode_iff _ zero one]
      simp only [show ¬ w.extractLsb' 26 6 = 0b000000#6 from zero, show ¬ w.extractLsb' 26 6 = 0b000001#6 from one,
        false_and, or_false]
      rfl

end

section
/-! PROOF. The branches and the register jumps (44_control.md R126, R132 to R139, 30_encoding.md R65): the target as
`pc + 4` and four times the exact offset, the field that reaches a label, and the two outcomes of a branch. -/

namespace Sys2Proof.Machine

/-! ## The target of a branch (R126) -/

theorem branchTarget_eq_add_ofInt (pc : Word) (imm : Imm16) :
    branchTarget pc imm = pc + 4#32 + BitVec.ofInt 32 (imm.toInt * 4) := by
  have offset : signedImmediate imm <<< 2 = BitVec.ofInt 32 (imm.toInt * 4) :=
    calc signedImmediate imm <<< 2
        = BitVec.ofInt 32 imm.toInt * BitVec.ofInt 32 4 := BitVec.shiftLeft_eq_mul_twoPow ..
      _ = BitVec.ofInt 32 (imm.toInt * 4) := (BitVec.ofInt_mul ..).symm
  rw [branchTarget, offset]

theorem four_mul_toInt_imm16_range (imm : Imm16) : -131072 ≤ imm.toInt * 4 ∧ imm.toInt * 4 ≤ 131068 := by
  have low : -2 ^ 15 ≤ imm.toInt := BitVec.le_toInt imm
  have high : imm.toInt < 2 ^ 15 := BitVec.toInt_lt
  omega

theorem branchTarget_toNat_mod_four {pc : Word} (al : pc.toNat % 4 = 0) (imm : Imm16) :
    (branchTarget pc imm).toNat % 4 = 0 := by
  rw [branchTarget, BitVec.toNat_add, BitVec.toNat_add, BitVec.toNat_shiftLeft, BitVec.toNat_ofNat, Nat.shiftLeft_eq]
  omega

/-! ## The field of a branch to a label (R65) -/

/-- The field is the distance divided by 4, which loses nothing within the field's range. -/
theorem toInt_branchField {d : Word} (al : d.toInt % 4 = 0) (low : -131072 ≤ d.toInt) (high : d.toInt ≤ 131068) :
    ((d >>> 2).extractLsb' 0 16).toInt * 4 = d.toInt := by
  have field : ((d >>> 2).extractLsb' 0 16).toNat = d.toNat / 4 % 2 ^ 16 := by
    rw [BitVec.extractLsb'_toNat, BitVec.toNat_ushiftRight, Nat.shiftRight_zero, Nat.shiftRight_eq_div_pow]
  rw [BitVec.toInt_eq_toNat_cond] at al low high ⊢
  rw [BitVec.toInt_eq_toNat_cond, field]
  have := d.isLt
  split at al <;> split <;> omega

theorem isSome_branchField_iff (pc label : Word) :
    (branchField pc label).isSome = true ↔
      (label - (pc + 4#32)).toInt % 4 = 0 ∧ -131072 ≤ (label - (pc + 4#32)).toInt ∧
        (label - (pc + 4#32)).toInt ≤ 131068 := by
  unfold branchField
  simp only
  split <;> simp_all

theorem branchTarget_of_branchField {pc label : Word} {imm : Imm16} (h : branchField pc label = some imm) :
    branchTarget pc imm = label := by
  obtain ⟨al, low, high⟩ := (isSome_branchField_iff pc label).mp (Option.isSome_of_eq_some h)
  rw [branchField, if_pos ⟨al, low, high⟩] at h
  obtain rfl := Option.some.inj h
  rw [branchTarget_eq_add_ofInt, toInt_branchField al low high, BitVec.ofInt_toInt]
  bv_omega

/-! ## The two outcomes of a branch -/

section
variable {i : Instr} {s : State} {c : Bool} {imm : Imm16} (h : exec i s = branchIf c imm s)
include h

theorem onlyMovesPc_of_exec_eq_branchIf :
    OnlyMovesPc i s (if c then branchTarget s.pc imm else s.pc + 4#32) :=
  ⟨_, h.trans (branchIf_eq ..), State.setPc_pc .., State.setPc_report .., nothingWritten_setPc_template s _⟩

/-- A branch whose condition is `p` goes to its target when `p` holds. -/
theorem onlyMovesPc_of_condition {p : Prop} [Decidable p] (hc : c = true ↔ p) :
    OnlyMovesPc i s (if p then branchTarget s.pc imm else s.pc + 4#32) := by
  have moves := onlyMovesPc_of_exec_eq_branchIf h
  rwa [ite_cond_congr (propext hc)] at moves

/-- A branch whose condition is the opposite of `p` goes to its target when `p` does not hold. -/
theorem onlyMovesPc_of_not_condition {p : Prop} [Decidable p] (hc : c = true ↔ ¬ p) :
    OnlyMovesPc i s (if p then s.pc + 4#32 else branchTarget s.pc imm) := by
  have moves := onlyMovesPc_of_condition h hc
  rwa [ite_not] at moves

end

theorem exec_beq (rs rt : RegIdx) (imm : Imm16) (s : State) :
    exec (.beq rs rt imm) s = branchIf (equalWords (s.reg rs) (s.reg rt)) imm s := rfl

theorem exec_bne (rs rt : RegIdx) (imm : Imm16) (s : State) :
    exec (.bne rs rt imm) s = branchIf (!equalWords (s.reg rs) (s.reg rt)) imm s := rfl

theorem exec_blez (rs rt : RegIdx) (imm : Imm16) (s : State) :
    exec (.blez rs rt imm) s = branchIf (atMostZero (s.reg rs)) imm s := rfl

theorem exec_bgtz (rs rt : RegIdx) (imm : Imm16) (s : State) :
    exec (.bgtz rs rt imm) s = branchIf (aboveZero (s.reg rs)) imm s := rfl

theorem exec_bltz (rs : RegIdx) (imm : Imm16) (s : State) :
    exec (.bltz rs imm) s = branchIf (belowZero (s.reg rs)) imm s := rfl

theorem exec_bgez (rs : RegIdx) (imm : Imm16) (s : State) :
    exec (.bgez rs imm) s = branchIf (atLeastZero (s.reg rs)) imm s := rfl

theorem equalWords_iff (a b : Word) : equalWords a b = true ↔ a.toInt = b.toInt := by
  rw [equalWords, decide_eq_true_iff, BitVec.toInt_inj]

theorem not_equalWords_iff (a b : Word) : (!equalWords a b) = true ↔ ¬ a.toInt = b.toInt := by
  rw [Bool.not_eq_true', ← Bool.not_eq_true, equalWords_iff]

theorem atMostZero_iff (a : Word) : atMostZero a = true ↔ a.toInt ≤ 0 := decide_eq_true_iff

theorem aboveZero_iff (a : Word) : aboveZero a = true ↔ ¬ a.toInt ≤ 0 := decide_eq_true_iff.trans Int.not_le.symm

theorem belowZero_iff (a : Word) : belowZero a = true ↔ a.toInt < 0 := decide_eq_true_iff

theorem atLeastZero_iff (a : Word) : atLeastZero a = true ↔ ¬ a.toInt < 0 := decide_eq_true_iff.trans Int.not_lt.symm

end Sys2Proof.Machine

open Sys2Proof.Machine

/-- Settles O7: the field is defined in the range and is the distance divided by 4, which the branch multiplies out. -/
theorem branchFieldReachesItsLabel : Obligations.BranchFieldReachesItsLabel :=
  fun pc label => ⟨isSome_branchField_iff pc label, fun _ => branchTarget_of_branchField⟩

/-- Settles O53: each branch answers with `branchIf` of its condition, which is a relation of signed values or its
opposite. -/
theorem branchesGoToTargetOrNext : Obligations.BranchesGoToTargetOrNext := by
  rintro rs rt imm s _ rfl
  rw [← branchTarget_eq_add_ofInt]
  exact
    ⟨onlyMovesPc_of_condition (exec_beq ..) (equalWords_iff ..),
      onlyMovesPc_of_not_condition (exec_bne ..) (not_equalWords_iff ..),
      onlyMovesPc_of_condition (exec_blez ..) (atMostZero_iff ..),
      onlyMovesPc_of_not_condition (exec_bgtz ..) (aboveZero_iff ..),
      onlyMovesPc_of_condition (exec_bltz ..) (belowZero_iff ..),
      onlyMovesPc_of_not_condition (exec_bgez ..) (atLeastZero_iff ..)⟩

/-- Settles O54: the distance is four times the exact immediate, and its two low bits are 0. -/
theorem branchTargetRangeAndAlignment : Obligations.BranchTargetRangeAndAlignment := by
  intro pc imm
  obtain ⟨low, high⟩ := four_mul_toInt_imm16_range imm
  exact ⟨⟨imm.toInt * 4, low, high, branchTarget_eq_add_ofInt pc imm⟩, fun al => branchTarget_toNat_mod_four al imm⟩

/-- Settles O51: JR jumps to `rs`, and JALR jumps to it and links, both from the current snapshot. -/
theorem registerJumpsTakeTheOldSource : Obligations.RegisterJumpsTakeTheOldSource :=
  fun _ _ _ _ _ => ⟨onlyMovesPc_of_exec_eq (exec_jr ..), jumpsAndLinks_of_exec_eq (exec_jalr ..)⟩

end

section
/-! PROOF. The invariant (20_memory.md R32, R33): an aligned access that starts in a region stays in it, so a store
lists bytes of regions only, and no other effect touches memory or the region table. -/

namespace Sys2Proof.Machine

/-! ## An aligned access lies in one region (R33(c)) -/

theorem region_contains_iff (r : Region) (a : Word) :
    r.contains a = true ↔ r.base.toNat ≤ a.toNat ∧ a.toNat ≤ r.limit.toNat := by
  rw [Region.contains, Bool.and_eq_true, decide_eq_true_iff, decide_eq_true_iff]

theorem inBounds_iff (s : State) (a : Word) : inBounds s a = true ↔ ∃ r ∈ s.regions, r.contains a = true :=
  List.find?_isSome

theorem aligned_iff (a : Word) (w : Width) : aligned a w = true ↔ a.toNat % w.bytes = 0 := decide_eq_true_iff

theorem wordAligned_of_admissible {rs : List Region} (adm : regionsAdmissible rs = true) {r : Region} (hr : r ∈ rs) :
    (r.limit.toNat + 1) % 4 = 0 := by
  simp only [regionsAdmissible, Bool.and_eq_true, List.all_eq_true] at adm
  obtain ⟨⟨-, words⟩, -⟩ := adm
  have word := words r hr
  rw [Region.wordAligned, Bool.and_eq_true, decide_eq_true_iff, decide_eq_true_iff] at word
  exact word.2

/-- No region ends inside an aligned word, halfword or byte. -/
theorem le_limit_of_aligned {limit a : Nat} (ends : (limit + 1) % 4 = 0) (h : a ≤ limit) {w : Width}
    (al : a % w.bytes = 0) {k : Nat} (hk : k < w.bytes) : a + k ≤ limit := by
  cases w <;> simp only [Width.bytes] at al hk <;> omega

/-- Every byte of an aligned access is in the region of its first byte, without wrap-around. -/
theorem inBounds_add_of_aligned {s : State} (adm : regionsAdmissible s.regions = true) {a : Word} {w : Width}
    (al : aligned a w = true) (hin : inBounds s a = true) {k : Nat} (hk : k < w.bytes) :
    a.toNat + k < 2 ^ 32 ∧ inBounds s (BitVec.ofNat 32 (a.toNat + k)) = true := by
  obtain ⟨r, hr, contains⟩ := (inBounds_iff s a).mp hin
  obtain ⟨base, limit⟩ := (region_contains_iff r a).mp contains
  have last : a.toNat + k ≤ r.limit.toNat :=
    le_limit_of_aligned (wordAligned_of_admissible adm hr) limit ((aligned_iff a w).mp al) hk
  have fits : a.toNat + k < 2 ^ 32 := Nat.lt_of_le_of_lt last r.limit.isLt
  refine ⟨fits, (inBounds_iff ..).mpr ⟨r, hr, (region_contains_iff ..).mpr ?_⟩⟩
  rw [BitVec.toNat_ofNat, Nat.mod_eq_of_lt fits]
  omega

/-! ## What the report's merge leaves unchanged -/

@[simp] theorem mergeReport_mem (f : Option FaultReport) (t : State) : (mergeReport f t).mem = t.mem := by
  cases f <;> rfl
@[simp] theorem mergeReport_regions (f : Option FaultReport) (t : State) :
    (mergeReport f t).regions = t.regions := by cases f <;> rfl

/-! ## What an instruction and a step do to memory and to the region table -/

theorem Effect.regions_eq {i : Instr} {s t : State} (e : Effect i s t) : t.regions = s.regions := by
  cases e with
  | register | load | link | store => simp
  | hiAndLo | hiOnly | loOnly | jump | halt | fault => rfl

/-- An instruction leaves memory as it was, or is a store with its aligned MemWrite. -/
theorem Effect.mem_eq_or {i : Instr} {s t : State} (e : Effect i s t) :
    t.mem = s.mem ∨ ∃ a w v, storedBytes i s = some (a, w.bytes) ∧ aligned a w = true ∧
      t.mem = (memWrite s a w v).mem := by
  cases e with
  | store a w v r h al => exact .inr ⟨a, w, v, h, al, memWrite_template_mem s a w v⟩
  | register | load | link => exact .inl (State.setReg_mem ..)
  | hiAndLo | hiOnly | loOnly | jump | halt | fault => exact .inl rfl

theorem step_regions_eq {s t : State} (h : step s = .next t) : t.regions = s.regions := by
  obtain ⟨-, ⟨-, rfl⟩ | ⟨-, ⟨-, rfl⟩ | ⟨-, e, -, rfl⟩ | ⟨-, i, u, -, -, effect, rfl⟩⟩⟩ := step_cases h
  · rfl
  · rfl
  · rfl
  · simp [effect.regions_eq]

/-- A step leaves memory as it was or makes one aligned MemWrite. -/
theorem step_mem_eq_or {s t : State} (h : step s = .next t) :
    t.mem = s.mem ∨ ∃ a w v, aligned a w = true ∧ t.mem = (memWrite s a w v).mem := by
  obtain ⟨-, ⟨-, rfl⟩ | ⟨-, ⟨-, rfl⟩ | ⟨-, e, -, rfl⟩ | ⟨-, i, u, -, -, effect, rfl⟩⟩⟩ := step_cases h
  · exact .inl rfl
  · exact .inl rfl
  · exact .inl rfl
  · rw [commit_mem, mergeReport_mem]
    exact effect.mem_eq_or.imp_right fun ⟨a, w, v, _, al, eq⟩ => ⟨a, w, v, al, eq⟩

/-! ## The invariant -/

/-- A state's cells lie in its regions whenever another state with the same memory and regions has them so. -/
theorem cellsInRegions_congr {s t : State} (cells : CellsInRegions s) (mem : t.mem = s.mem)
    (regions : t.regions = s.regions) : CellsInRegions t := by
  intro c hc
  rw [inBounds_congr regions]
  exact cells c (mem ▸ hc)

/-- An aligned MemWrite lists bytes of regions only: its cells were there or are bytes of the access. -/
theorem cellsInRegions_memWrite {s : State} (adm : regionsAdmissible s.regions = true) (cells : CellsInRegions s)
    {a : Word} {w : Width} (al : aligned a w = true) (v : Word) : CellsInRegions (memWrite s a w v) := by
  cases hin : inBounds s a with
  | false => rwa [memWrite_outOfBounds hin]
  | true =>
    intro c hc
    rw [inBounds_congr (memWrite_regions ..)]
    rw [memWrite, if_pos hin, State.setMem_mem] at hc
    obtain ⟨low, high⟩ | old := Memory.mem_writeBytes hc
    · rw [storedBytes_length] at high
      have byte := inBounds_add_of_aligned adm al hin (k := c.1 - a.toNat) (by omega)
      rwa [Nat.add_sub_of_le low] at byte
    · exact cells c old

/-- The invariant's part about memory and the region table. -/
theorem step_keeps_memory_invariant {s t : State} (wf : s.mem.wf) (cells : CellsInRegions s) (h : step s = .next t) :
    t.mem.wf ∧ CellsInRegions t := by
  have regions := step_regions_eq h
  have adm : regionsAdmissible s.regions = true := (step_cases h).1
  obtain mem | ⟨a, w, v, al, mem⟩ := step_mem_eq_or h
  · exact ⟨mem ▸ wf, cellsInRegions_congr cells mem regions⟩
  · exact ⟨mem ▸ memWrite_wf wf a w v,
      cellsInRegions_congr (cellsInRegions_memWrite adm cells al v) mem (regions.trans (memWrite_regions ..).symm)⟩

end Sys2Proof.Machine

open Sys2Proof.Machine

/-- Settles O19: register 0's storage and the region table are not touched, and memory is touched by an aligned
MemWrite only. -/
theorem stepKeepsTheInvariant : Obligations.StepKeepsTheInvariant := by
  rintro s t ⟨zero, wf, cells, adm⟩ h
  obtain ⟨wf', cells'⟩ := step_keeps_memory_invariant wf cells h
  exact ⟨(step_regs_zero_eq h).trans zero, wf', cells', (step_regions_eq h).symm ▸ adm⟩

/-- Settles O20: no byte is listed after reset, and the default table meets R33. -/
theorem resetMeetsTheInvariant : Obligations.ResetMeetsTheInvariant :=
  ⟨rfl, reset_wf, fun _ listed => absurd listed List.not_mem_nil, by decide⟩

end

section
/-! PROOF. The frames over all instructions (10_state.md R19, R22, 20_memory.md R44, R47): each effect changes only what
the instruction's destination, HI and LO lists and stored bytes allow. -/

namespace Sys2Proof.Machine

variable {i : Instr} {s t : State}

theorem Effect.reg_eq (e : Effect i s t) {r : RegIdx} (other : destination i ≠ some r) : t.reg r = s.reg r := by
  cases e with
  | register d v h | load d v rep h | link d target h =>
    have ne : r ≠ d := fun eq => other (eq ▸ h)
    exact State.reg_setReg_of_ne _ ne _
  | store => simp
  | hiAndLo | hiOnly | loOnly | jump | halt | fault => rfl

theorem Effect.countersSame (e : Effect i s t) : CountersSame s t := by
  refine ⟨e.instructionCount_eq, ?_, e.regions_eq, ?_⟩
  all_goals cases e with
  | register | load | link | store => simp
  | hiAndLo | hiOnly | loOnly | jump | halt | fault => rfl

/-- Only SYSCALL touches `running`. -/
theorem Effect.running_eq_or (e : Effect i s t) :
    t.running = s.running ∨ t.running = false ∧ ∃ ignored, i = .syscall ignored := by
  cases e with
  | halt ignored h => exact .inr ⟨rfl, ignored, h⟩
  | register | load | link | store => exact .inl (by simp)
  | hiAndLo | hiOnly | loOnly | jump | fault => exact .inl rfl

theorem Effect.hi_eq (e : Effect i s t) (h : mayWriteHi i = false) : t.hi = s.hi := by
  cases e with
  | hiAndLo _ _ may | hiOnly _ may => exact absurd (h.symm.trans may) Bool.false_ne_true
  | register | load | link | store => simp
  | loOnly | jump | halt | fault => rfl

theorem Effect.lo_eq (e : Effect i s t) (h : mayWriteLo i = false) : t.lo = s.lo := by
  cases e with
  | hiAndLo _ _ _ may | loOnly _ may => exact absurd (h.symm.trans may) Bool.false_ne_true
  | register | load | link | store => simp
  | hiOnly | jump | halt | fault => rfl

theorem mayWriteHi_eq_decide (i : Instr) :
    mayWriteHi i = decide (i.mnemonic ∈ ["MULT", "MULTU", "DIV", "DIVU", "MTHI"]) := by
  cases i <;> rfl

theorem mayWriteLo_eq_decide (i : Instr) :
    mayWriteLo i = decide (i.mnemonic ∈ ["MULT", "MULTU", "DIV", "DIVU", "MTLO"]) := by
  cases i <;> rfl

theorem Effect.memSame_of_no_store (e : Effect i s t) (h : storedBytes i s = none) : MemSame s t := by
  obtain mem | ⟨a, w, v, stored, -, -⟩ := e.mem_eq_or
  · exact fun b => congrArg (Memory.read · b) mem
  · exact absurd (h.symm.trans stored) (Option.some_ne_none _).symm

theorem Effect.memSameOutside_of_store (e : Effect i s t) (wf : s.mem.wf) {a : Word} {n : Nat}
    (h : storedBytes i s = some (a, n)) : MemSameOutside a.toNat n s t := by
  intro b outside
  obtain mem | ⟨a', w, v, stored, -, mem⟩ := e.mem_eq_or
  · rw [mem]
  · obtain ⟨rfl, rfl⟩ := Prod.mk.inj (Option.some.inj (h.symm.trans stored))
    rw [mem, read_memWrite_outside wf a w v outside]

end Sys2Proof.Machine

open Sys2Proof.Machine

/-- Settles O23: every register write is one of the destination, and no effect touches the counters or the
configuration. -/
theorem onlyTheDestinationRegisterChanges : Obligations.OnlyTheDestinationRegisterChanges := by
  intro i s t h
  have effect := effect_of_exec h
  refine ⟨fun r other => effect.reg_eq other, effect.countersSame, fun notSyscall => ?_⟩
  obtain same | ⟨-, ignored, rfl⟩ := effect.running_eq_or
  · exact same
  · exact absurd rfl notSyscall

/-- Settles O24: the effects that write HI or LO are those of the instructions on `mayWriteHi` and `mayWriteLo`. -/
theorem onlyMultiplyDivideAndMovesWriteHiLo : Obligations.OnlyMultiplyDivideAndMovesWriteHiLo := by
  intro i s t h
  have effect := effect_of_exec h
  exact ⟨fun other => effect.hi_eq ((mayWriteHi_eq_decide i).trans (decide_eq_false other)),
    fun other => effect.lo_eq ((mayWriteLo_eq_decide i).trans (decide_eq_false other))⟩

/-- Settles O25: memory is touched by a store's MemWrite only, which leaves every byte outside its own alone. -/
theorem onlyStoresChangeMemory : Obligations.OnlyStoresChangeMemory :=
  fun _ _ _ wf h =>
    ⟨fun _ _ stored => (effect_of_exec h).memSameOutside_of_store wf stored,
      fun none => (effect_of_exec h).memSame_of_no_store none⟩

end

section
/-! PROOF. The next pc and the report of every instruction (10_state.md R20, R21, 44_control.md R128,
60_exceptions.md R144): an instruction goes on at `pc + 4` without a report, transfers control without one, or reports
one fault, whose record is made of its own pc, word and access. -/

namespace Sys2Proof.Machine

/-- The jumps and branches (R21). -/
def transfersControl (i : Instr) : Bool :=
  decide (i.mnemonic ∈ ["J", "JAL", "JR", "JALR", "BEQ", "BNE", "BLEZ", "BGTZ", "BLTZ", "BGEZ"])

/-- The jumps whose target is a register, which nothing aligns (R128). -/
def jumpsToRegister (i : Instr) : Bool := decide (i.mnemonic ∈ ["JR", "JALR"])

/-- The ways an instruction ends, by its report: what is known of the pc when there is none, and the whole next state
when there is one. -/
inductive Ends (i : Instr) (s : State) : State → Prop where
  | goesOn {t : State} (quiet : t.report = none) (pc : t.pc = s.pc + 4#32) : Ends i s t
  | transfers {t : State} (quiet : t.report = none)
      (h : transfersControl i = true)
      (al : s.pc.toNat % 4 = 0 → jumpsToRegister i = false → t.pc.toNat % 4 = 0) : Ends i s t
  | arithmeticFault (code : FaultCode) (h : code = .arithmeticOverflow ∨ code = .divideByZero)
      (access : dataAccess i s = none) :
      Ends i s (reportFault (template s) (instructionReport code s.pc (encode i)))
  | refusedAccess (code : FaultCode) (a : Access) (h : code = .outOfBoundsMemoryAccess ∨ code = .unalignedAccess)
      (access : dataAccess i s = some a) :
      Ends i s (reportFault (template s) (dataReport code s.pc (encode i) a.addr a.kind a.width))
  | loadedZero (d : RegIdx) (a : Access) (access : dataAccess i s = some a) (dest : destination i = some d) :
      Ends i s (((template s).setReg d 0#32).setReport
        (some (dataReport .outOfBoundsMemoryAccess s.pc (encode i) a.addr a.kind a.width)))

variable {i : Instr} {s : State}

theorem ends_writeResult (d : RegIdx) (v : Word) : ∃ t, writeResult d v s = .next t ∧ Ends i s t :=
  ⟨_, rfl, .goesOn (State.setReg_report ..) (State.setReg_pc ..)⟩

theorem ends_trappingAdd (access : dataAccess i s = none) (d : RegIdx) (a b : Word) :
    ∃ t, trappingAdd (encode i) d a b s = .next t ∧ Ends i s t := by
  rw [trappingAdd_eq]
  refine ⟨_, rfl, ?_⟩
  split
  · exact .arithmeticFault _ (.inl rfl) access
  · exact .goesOn (State.setReg_report ..) (State.setReg_pc ..)

theorem ends_divideInto (access : dataAccess i s = none) (b q r : Word) :
    ∃ t, divideInto (encode i) b q r s = .next t ∧ Ends i s t := by
  rw [divideInto_eq]
  refine ⟨_, rfl, ?_⟩
  split
  · exact .arithmeticFault _ (.inr rfl) access
  · exact .goesOn rfl rfl

theorem ends_loadInto {ea : Word} {w : Width} {d : RegIdx} (access : dataAccess i s = some ⟨ea, .load, w⟩)
    (dest : destination i = some d) {extend : Word → Word} (zero : extend 0#32 = 0#32) :
    ∃ t, loadInto (encode i) w extend d ea s = .next t ∧ Ends i s t := by
  rw [loadInto_eq]
  refine ⟨_, rfl, ?_⟩
  split
  · cases hin : inBounds s ea with
    | true =>
      rw [outOfBoundsReport_inside hin]
      exact .goesOn rfl (State.setReg_pc ..)
    | false =>
      rw [outOfBoundsReport_outside hin, memRead_outside hin, zero]
      exact .loadedZero d _ access dest
  · exact .refusedAccess _ _ (.inr rfl) access

theorem ends_storeFrom {ea : Word} {w : Width} (access : dataAccess i s = some ⟨ea, .store, w⟩) (v : Word) :
    ∃ t, storeFrom (encode i) w v ea s = .next t ∧ Ends i s t := by
  rw [storeFrom_eq]
  refine ⟨_, rfl, ?_⟩
  split
  · cases hin : inBounds s ea with
    | true =>
      rw [outOfBoundsReport_inside hin]
      exact .goesOn rfl (memWrite_pc ..)
    | false =>
      rw [outOfBoundsReport_outside hin, memWrite_outOfBounds (s := template s) hin]
      exact .refusedAccess _ _ (.inl rfl) access
  · exact .refusedAccess _ _ (.inr rfl) access

theorem next_pc_toNat_mod_four {pc : Word} (al : pc.toNat % 4 = 0) : (pc + 4#32).toNat % 4 = 0 := by
  rw [BitVec.toNat_add, BitVec.toNat_ofNat]
  omega

theorem ends_branchIf (h : transfersControl i = true) (c : Bool) (imm : Imm16) :
    ∃ t, branchIf c imm s = .next t ∧ Ends i s t := by
  rw [branchIf_eq]
  refine ⟨_, rfl, .transfers rfl h fun al _ => ?_⟩
  rw [State.setPc_pc]
  split
  · exact branchTarget_toNat_mod_four al imm
  · exact next_pc_toNat_mod_four al

/-- Every instruction ends in one of these ways. -/
theorem exec_ends (i : Instr) (s : State) : ∃ t, exec i s = .next t ∧ Ends i s t := by
  cases i with
  | add | addi => exact ends_trappingAdd rfl _ _ _
  | addu | addiu | sub | subu | and | andi | or | ori | xor | xori | nor | sll | srl | sra | slt | slti | sltu | sltiu
  | lui | mfhi | mflo => exact ends_writeResult _ _
  | mult | multu | mthi | mtlo | syscall => exact ⟨_, rfl, .goesOn rfl rfl⟩
  | div | divu => exact ends_divideInto rfl _ _ _
  | lb | lh | lw | lbu | lhu => exact ends_loadInto rfl rfl rfl
  | sb | sh | sw => exact ends_storeFrom rfl _
  | j target => exact ⟨_, rfl, .transfers rfl rfl fun _ _ => jumpTarget_toNat_mod_four s.pc target⟩
  | jal target =>
    exact ⟨_, rfl, .transfers (State.setReg_report ..) rfl fun _ _ => jumpTarget_toNat_mod_four s.pc target⟩
  | jr => exact ⟨_, rfl, .transfers rfl rfl fun _ other => absurd other.symm Bool.false_ne_true⟩
  | jalr => exact ⟨_, rfl, .transfers (State.setReg_report ..) rfl fun _ other => absurd other.symm Bool.false_ne_true⟩
  | beq | bne | blez | bgtz | bltz | bgez => exact ends_branchIf rfl _ _

theorem ends_of_exec {t : State} (h : exec i s = .next t) : Ends i s t := by
  obtain ⟨u, run, ends⟩ := exec_ends i s
  exact Host.Outcome.next.inj (run.symm.trans h) ▸ ends

variable {t : State}

/-- Whatever does not transfer control goes on at the next instruction. -/
theorem Ends.pc_eq (e : Ends i s t) (h : transfersControl i = false) : t.pc = s.pc + 4#32 := by
  cases e with
  | goesOn _ pc => exact pc
  | transfers _ transfers => exact absurd (h.symm.trans transfers) Bool.false_ne_true
  | arithmeticFault | refusedAccess => rfl
  | loadedZero => exact State.setReg_pc ..

theorem Ends.pc_toNat_mod_four (e : Ends i s t) (al : s.pc.toNat % 4 = 0) (h : jumpsToRegister i = false) :
    t.pc.toNat % 4 = 0 := by
  cases e with
  | transfers _ _ keeps => exact keeps al h
  | goesOn _ pc => exact pc ▸ next_pc_toNat_mod_four al
  | arithmeticFault | refusedAccess => exact next_pc_toNat_mod_four al
  | loadedZero => simpa using next_pc_toNat_mod_four al

/-- The record of a reported fault (R144): the instruction's pc, word and own access, which is there for the access
faults and not for the arithmetic ones. -/
theorem Ends.report_record (e : Ends i s t) {r : FaultReport} (h : t.report = some r) :
    r.pc = some s.pc ∧ r.word = some (encode i) ∧ r.access = dataAccess i s ∧
      ((r.code = .arithmeticOverflow ∨ r.code = .divideByZero) ∧ r.access = none ∨
        (r.code = .outOfBoundsMemoryAccess ∨ r.code = .unalignedAccess) ∧ r.access.isSome = true) := by
  cases e with
  | goesOn quiet | transfers quiet => exact absurd (quiet.symm.trans h) (Option.some_ne_none r).symm
  | arithmeticFault code kind access =>
    obtain rfl := Option.some.inj h
    exact ⟨rfl, rfl, access.symm, .inl ⟨kind, rfl⟩⟩
  | refusedAccess code a kind access =>
    obtain rfl := Option.some.inj h
    exact ⟨rfl, rfl, access.symm, .inr ⟨kind, rfl⟩⟩
  | loadedZero d a access =>
    obtain rfl := Option.some.inj h
    exact ⟨rfl, rfl, access.symm, .inr ⟨.inl rfl, rfl⟩⟩

end Sys2Proof.Machine

open Sys2Proof.Machine

/-- Settles O26: only the jumps and branches leave the pc of the template, and the target of each but JR and JALR is
aligned when the pc is. -/
theorem onlyRegisterJumpsMisalignThePc : Obligations.OnlyRegisterJumpsMisalignThePc :=
  fun _ _ _ h =>
    ⟨fun other => (ends_of_exec h).pc_eq (decide_eq_false other),
      fun al other => (ends_of_exec h).pc_toNat_mod_four al (decide_eq_false other)⟩

/-- Settles O17: the record of every way an instruction ends with a report, and the numbers of R144. -/
theorem faultRecordsNameTheInstruction : Obligations.FaultRecordsNameTheInstruction :=
  ⟨fun _ _ _ _ h reported => (ends_of_exec h).report_record reported, rfl, rfl, rfl, rfl, rfl⟩

end

section
/-! PROOF. One cycle (40_cycle.md R67 to R77): what the step is for each thing FETCH can bring, when the core halts, and
what a cycle that reports a fault leaves as it was (60_exceptions.md R146, R149). -/

namespace Sys2Proof.Machine

/-! ## The step by what FETCH brings -/

theorem cycle_of_decoded {s : State} {w : Word} {fetchSays : Option FaultReport} {i : Instr}
    (fetched : fetch s = .word w fetchSays) (decoded : decodeWord w = .ok i) :
    cycle s = finish fetchSays (exec i s) := by
  simp only [cycle, fetched, decoded]

/-- The step of a core that fetches `i` commits what EXECUTE of `i` answers. -/
theorem step_of_fetches {s : State} {i : Instr} (h : Fetches s i) :
    ∃ t, exec i s = .next t ∧ step s = .next (commit t) := by
  obtain ⟨adm, run, canFetch, decoded⟩ := h
  obtain ⟨t, executed, -⟩ := exec_effect i s
  refine ⟨t, executed, ?_⟩
  rw [step_eq_cycle adm run, cycle_of_decoded (fetch_of_fetchable canFetch) decoded, executed, finish, mergeReport_none]

theorem cycle_of_misaligned {s : State} (h : aligned s.pc .word = false) :
    cycle s = .next (commit (reportFault (template s) (fetchReport .unalignedAccess s.pc))) := by
  rw [cycle, fetch_misaligned h]

/-- The word 0, which FETCH brings from outside every region, is SLL of register 0. -/
theorem decodeWord_zero : decodeWord 0#32 = .ok (.sll 0#5 0#5 0#5 0#5) := by decide

/-- That SLL writes nothing: it is a NOP (R69). -/
theorem exec_nop (s : State) : exec (.sll 0#5 0#5 0#5 0#5) s = .next (template s) := rfl

theorem fetch_outside {s : State} (al : aligned s.pc .word = true) (out : inBounds s s.pc = false) :
    fetch s = .word 0#32 (some (fetchReport .outOfBoundsMemoryAccess s.pc)) := by
  rw [fetch_aligned al, memRead_outside out, outOfBoundsReport_outside out]

theorem cycle_of_outside {s : State} (al : aligned s.pc .word = true) (out : inBounds s s.pc = false) :
    cycle s =
      .next (commit (reportFault (template s) (fetchReport .outOfBoundsMemoryAccess s.pc))) := by
  rw [cycle_of_decoded (fetch_outside al out) decodeWord_zero, exec_nop]
  rfl

theorem step_of_halted {s : State} (adm : regionsAdmissible s.regions = true) (halted : s.running = false) :
    step s = .next s := by
  rw [step, stepOnce, if_pos adm, halted, if_neg Bool.false_ne_true]

theorem hostStep_of_halted {s : State} (halted : s.running = false) (n : Nat) : hostStep n s = (.next s, []) := by
  cases n with
  | zero => rfl
  | succ n => rw [hostStep, halted, if_neg Bool.false_ne_true]

/-- A running core's step, by what FETCH brings: it reports a misaligned or out-of-bounds pc or an illegal word and
does nothing else, or it fetches an instruction and commits its effect. -/
theorem cycles_cases {s t : State} (h : Cycles s t) :
    (∃ r : FaultReport, r.pc = some s.pc ∧ t = commit (reportFault (template s) r) ∧ ∀ i, ¬ Fetches s i) ∨
      ∃ i u, Fetches s i ∧ exec i s = .next u ∧ t = commit u := by
  obtain ⟨run, h⟩ := h
  have adm := (step_cases h).1
  have notFetchable : fetchable s s.pc = false → ∀ i, ¬ Fetches s i :=
    fun no i ⟨_, _, yes, _⟩ => absurd (no.symm.trans yes) Bool.false_ne_true
  rw [step_eq_cycle adm run] at h
  cases al : aligned s.pc .word with
  | false =>
    rw [cycle_of_misaligned al] at h
    exact .inl ⟨_, rfl, (Host.Outcome.next.inj h).symm, notFetchable (by rw [fetchable, al, Bool.false_and])⟩
  | true =>
    cases inside : inBounds s s.pc with
    | false =>
      rw [cycle_of_outside al inside] at h
      exact .inl ⟨_, rfl, (Host.Outcome.next.inj h).symm, notFetchable (by rw [fetchable, inside, Bool.and_false])⟩
    | true =>
      have canFetch : fetchable s s.pc = true := by rw [fetchable, al, inside, Bool.and_self]
      cases decoded : decodeWord (s.mem.readWord s.pc.toNat) with
      | error e =>
        rw [cycle_of_illegal (fetch_of_fetchable canFetch) decoded] at h
        exact .inl ⟨_, rfl, (Host.Outcome.next.inj h).symm, fun i ⟨_, _, _, ok⟩ => nomatch decoded.symm.trans ok⟩
      | ok i =>
        have fetches : Fetches s i := ⟨adm, run, canFetch, decoded⟩
        obtain ⟨u, executed, stepped⟩ := step_of_fetches fetches
        rw [step_eq_cycle adm run, h] at stepped
        exact .inr ⟨i, u, fetches, executed, Host.Outcome.next.inj stepped⟩

/-! ## Halting -/

theorem exec_syscall (ignored : BitVec 20) (s : State) :
    exec (.syscall ignored) s = .next ((template s).setRunning false) := rfl

/-- The cycle that executes SYSCALL, whole. -/
theorem cycles_syscall {s t : State} (h : Cycles s t) {ignored : BitVec 20} (fetches : Fetches s (.syscall ignored)) :
    t = commit ((template s).setRunning false) := by
  obtain ⟨u, executed, stepped⟩ := step_of_fetches fetches
  have answer : u = (template s).setRunning false :=
    Host.Outcome.next.inj (executed.symm.trans (exec_syscall ignored s))
  exact answer ▸ Host.Outcome.next.inj (h.2.symm.trans stepped)

theorem cycles_halts_iff {s t : State} (h : Cycles s t) :
    t.running = false ↔ ∃ ignored, Fetches s (.syscall ignored) := by
  refine ⟨fun halted => ?_, fun ⟨_, fetches⟩ => cycles_syscall h fetches ▸ rfl⟩
  have run : s.running = true := h.1
  obtain ⟨r, -, rfl, -⟩ | ⟨i, u, fetches, executed, rfl⟩ := cycles_cases h
  · exact absurd (halted.symm.trans run) Bool.false_ne_true
  · obtain same | ⟨-, ignored, rfl⟩ := (effect_of_exec executed).running_eq_or
    · exact absurd (halted.symm.trans (same.trans run)) Bool.false_ne_true
    · exact ⟨ignored, fetches⟩

/-- The cycle that halts commits `pc + 4` and the count, and a step after it changes nothing (R77). -/
theorem cycles_halted {s t : State} (h : Cycles s t) (halted : t.running = false) :
    t.pc = s.pc + 4#32 ∧ t.instructionCount = s.instructionCount + 1#32 ∧ step t = .next t := by
  obtain ⟨ignored, fetches⟩ := (cycles_halts_iff h).mp halted
  have adm : regionsAdmissible t.regions = true := (step_regions_eq h.2).symm ▸ (step_cases h.2).1
  refine ⟨?_, step_counts_of_running h.1 h.2, step_of_halted adm halted⟩
  rw [cycles_syscall h fetches]
  rfl

/-! ## The host's operations and `running` -/

theorem writeMemoryWord_running (s : State) (a v : Word) : (writeMemoryWord s a v).1.running = s.running := by
  unfold writeMemoryWord
  split
  · exact memWrite_running ..
  · rfl

/-- `load_program` changes memory and the word count only. -/
theorem loadProgram_frame (s : State) (words : List Word) :
    (loadProgram s words).1 =
      { s with
        mem := (loadProgram s words).1.mem
        programWordCount := BitVec.ofNat 32 words.length } := by
  show (loadWords s Config.textBase words).1.setProgramWordCount _ = _
  rw [loadWords_frame]
  rfl

theorem loadProgram_running (s : State) (words : List Word) : (loadProgram s words).1.running = s.running := by
  rw [loadProgram_frame]

theorem hostReset_running (s : State) : (hostReset s).1.running = true :=
  loadProgram_running (blankState s.regions s.program) s.program

theorem writeRegister_running {s t : State} {i : Nat} {v : Word} (h : writeRegister s i v = .next t) :
    t.running = s.running := by
  unfold writeRegister at h
  split at h
  · exact Host.Outcome.next.inj h ▸ State.setReg_running ..
  · cases h

/-! ## A cycle that reports a fault -/

/-- An instruction that reports a fault goes on at `pc + 4` and writes nothing, or writes the 0 of an out-of-bounds
load. -/
theorem Ends.frame_of_report {i : Instr} {s t : State} (e : Ends i s t) {r : FaultReport} (h : t.report = some r) :
    t.pc = s.pc + 4#32 ∧
      (NothingWritten s t ∨
        r.code = .outOfBoundsMemoryAccess ∧ ∃ d, destination i = some d ∧ OnlyRegWritten d 0#32 s t) := by
  cases e with
  | goesOn quiet | transfers quiet => exact absurd (quiet.symm.trans h) (Option.some_ne_none r).symm
  | arithmeticFault | refusedAccess => exact ⟨rfl, .inl (nothingWritten_reportFault_template s _)⟩
  | loadedZero d a access dest =>
    obtain rfl := Option.some.inj h
    exact ⟨State.setReg_pc .., .inr ⟨rfl, d, dest, onlyRegWritten_setReg_template d 0#32 s⟩⟩

end Sys2Proof.Machine

open Sys2Proof.Machine

/-- Settles O8: the step of a core that fetches `i`, with COMMIT written out. -/
theorem stepRunsTheFetchedInstruction : Obligations.StepRunsTheFetchedInstruction :=
  fun _ _ fetches => step_of_fetches fetches

/-- Settles O10: the cycle at a misaligned pc, with its commit written out. -/
theorem misalignedFetchExecutesNothing : Obligations.MisalignedFetchExecutesNothing :=
  fun _ adm run misaligned => (step_eq_cycle adm run).trans (cycle_of_misaligned (decide_eq_false misaligned))

/-- Settles O11: the cycle at a pc outside every region, with its commit written out. -/
theorem outOfBoundsFetchRunsAsNop : Obligations.OutOfBoundsFetchRunsAsNop :=
  fun _ adm run al out => (step_eq_cycle adm run).trans (cycle_of_outside (decide_eq_true al) out)

/-- Settles O14: a halted core's step and the host's step(n) answer the state they are given. -/
theorem haltedCoreChangesNothing : Obligations.HaltedCoreChangesNothing :=
  fun _ n adm halted => ⟨step_of_halted adm halted, hostStep_of_halted halted n⟩

/-- Settles O15: of the things FETCH can bring only SYSCALL's effect touches `running`, and no host operation but stop
and reset writes it. -/
theorem onlySyscallOrStopHalts : Obligations.OnlySyscallOrStopHalts :=
  ⟨fun _ _ h => ⟨cycles_halts_iff h, cycles_halted h⟩, fun s => ⟨rfl, hostReset_running s⟩,
    fun s a v _ words =>
      ⟨writeMemoryWord_running s a v, loadProgram_running s words, rfl, rfl, fun _ => writeRegister_running⟩⟩

/-- Settles O16: the cycle reports before it executes anything, or its instruction ends with a report, which writes
nothing but an out-of-bounds load's 0. -/
theorem faultingCycleGoesOnAtNextPc : Obligations.FaultingCycleGoesOnAtNextPc := by
  intro s t r h reported
  have run : s.running = true := h.1
  obtain ⟨r', pc, rfl, -⟩ | ⟨i, u, fetches, executed, rfl⟩ := cycles_cases h
  · obtain rfl := Option.some.inj reported
    exact ⟨rfl, pc, ⟨rfl, rfl⟩, fun _ => rfl, run, .inl fun _ => rfl⟩
  · obtain ⟨recordPc, -⟩ := (ends_of_exec executed).report_record reported
    obtain ⟨pc, ⟨regs, hiLo, mem, running, -⟩ | ⟨code, d, dest, written, others, hiLo, mem, running, -⟩⟩ :=
      (ends_of_exec executed).frame_of_report reported
    · exact ⟨pc, recordPc, hiLo, mem, running.trans run, .inl regs⟩
    · rw [ite_self] at written
      exact ⟨pc, recordPc, hiLo, mem, running.trans run, .inr ⟨code, i, d, fetches, dest, written, others⟩⟩

end

section
/-! PROOF. The loads and stores (43_loadstore.md R114 to R123): each instruction answers with `loadInto` or `storeFrom`
at its effective address, whose three outcomes are misaligned, outside every region, and inside one. -/

namespace Sys2Proof.Machine

/-! ## The shared operation of each load and store -/

theorem exec_lb (rs rt : RegIdx) (imm : Imm16) (s : State) :
    exec (.lb rs rt imm) s =
      loadInto (encode (.lb rs rt imm)) .byte signExtendByte rt (s.reg rs + imm.signExtend 32) s := rfl

theorem exec_lbu (rs rt : RegIdx) (imm : Imm16) (s : State) :
    exec (.lbu rs rt imm) s =
      loadInto (encode (.lbu rs rt imm)) .byte zeroExtendByte rt (s.reg rs + imm.signExtend 32) s := rfl

theorem exec_lh (rs rt : RegIdx) (imm : Imm16) (s : State) :
    exec (.lh rs rt imm) s =
      loadInto (encode (.lh rs rt imm)) .half signExtendHalf rt (s.reg rs + imm.signExtend 32) s := rfl

theorem exec_lhu (rs rt : RegIdx) (imm : Imm16) (s : State) :
    exec (.lhu rs rt imm) s =
      loadInto (encode (.lhu rs rt imm)) .half zeroExtendHalf rt (s.reg rs + imm.signExtend 32) s := rfl

theorem exec_lw (rs rt : RegIdx) (imm : Imm16) (s : State) :
    exec (.lw rs rt imm) s =
      loadInto (encode (.lw rs rt imm)) .word id rt (s.reg rs + imm.signExtend 32) s := rfl

theorem exec_sb (rs rt : RegIdx) (imm : Imm16) (s : State) :
    exec (.sb rs rt imm) s =
      storeFrom (encode (.sb rs rt imm)) .byte (s.reg rt) (s.reg rs + imm.signExtend 32) s := rfl

theorem exec_sh (rs rt : RegIdx) (imm : Imm16) (s : State) :
    exec (.sh rs rt imm) s =
      storeFrom (encode (.sh rs rt imm)) .half (s.reg rt) (s.reg rs + imm.signExtend 32) s := rfl

theorem exec_sw (rs rt : RegIdx) (imm : Imm16) (s : State) :
    exec (.sw rs rt imm) s =
      storeFrom (encode (.sw rs rt imm)) .word (s.reg rt) (s.reg rs + imm.signExtend 32) s := rfl

/-! ## Alignment by width (R41) -/

theorem aligned_byte (a : Word) : aligned a .byte = true := decide_eq_true (Nat.mod_one _)

theorem aligned_half {a : Word} (h : a.toNat % 2 = 0) : aligned a .half = true := decide_eq_true h

theorem aligned_word {a : Word} (h : a.toNat % 4 = 0) : aligned a .word = true := decide_eq_true h

theorem misaligned_half {a : Word} (h : a.toNat % 2 ≠ 0) : aligned a .half = false := decide_eq_false h

theorem misaligned_word {a : Word} (h : a.toNat % 4 ≠ 0) : aligned a .word = false := decide_eq_false h

/-! ## The three outcomes of a load -/

section
variable {i : Instr} {s : State} {word ea : Word} {w : Width} {extend : Word → Word} {d : RegIdx}
  (h : exec i s = loadInto word w extend d ea s)
include h

theorem writesRegister_of_load (al : aligned ea w = true) (hin : inBounds s ea = true) :
    WritesRegister i s d (extend (memRead s ea w)) := by
  rw [loadInto_eq, if_pos al, outOfBoundsReport_inside hin] at h
  exact ⟨_, h, State.setReg_pc .., rfl, onlyRegWritten_setReg_template d _ s⟩

theorem loadsZero_of_load (al : aligned ea w = true) (out : inBounds s ea = false) (zero : extend 0#32 = 0#32) :
    LoadsZeroOutOfBounds i s d ea w := by
  rw [loadInto_eq, if_pos al, outOfBoundsReport_outside out, memRead_outside out, zero] at h
  exact ⟨_, _, h, State.setReg_pc .., rfl, rfl, rfl, rfl, onlyRegWritten_setReg_template d 0#32 s⟩

theorem accessRefused_of_misaligned_load (mis : aligned ea w = false) :
    AccessRefused i s .unalignedAccess ea .load w := by
  rw [loadInto_eq, mis, if_neg Bool.false_ne_true] at h
  exact ⟨_, _, h, rfl, rfl, rfl, rfl, rfl, nothingWritten_reportFault_template s _⟩

end

/-! ## The three outcomes of a store -/

section
variable {i : Instr} {s : State} {word v ea : Word} {w : Width} (h : exec i s = storeFrom word w v ea s)
include h

/-- The whole effect of a store inside a region: every byte of the next memory is known. -/
theorem exec_store_inside (wf : s.mem.wf) (al : aligned ea w = true) (hin : inBounds s ea = true) :
    ∃ t, exec i s = .next t ∧ t.pc = s.pc + 4#32 ∧ t.report = none ∧ RegsSame s t ∧ HiLoSame s t ∧
      RunStateSame s t ∧ t.mem.read = byteAfterStore s ea w.bytes v := by
  rw [storeFrom_eq, if_pos al, outOfBoundsReport_inside hin] at h
  refine ⟨_, h, memWrite_pc .., rfl, fun _ => memWrite_reg .., ⟨memWrite_hi .., memWrite_lo ..⟩,
    ⟨memWrite_running .., memWrite_instructionCount .., memWrite_programWordCount .., memWrite_regions ..,
      memWrite_program ..⟩, ?_⟩
  rw [State.setReport_mem, memWrite_template_mem]
  exact funext (read_memWrite wf hin w v)

theorem accessRefused_of_store_outside (al : aligned ea w = true) (out : inBounds s ea = false) :
    AccessRefused i s .outOfBoundsMemoryAccess ea .store w := by
  rw [storeFrom_eq, if_pos al, outOfBoundsReport_outside out, memWrite_outOfBounds (s := template s) out] at h
  exact ⟨_, _, h, rfl, rfl, rfl, rfl, rfl, nothingWritten_reportFault_template s _⟩

theorem accessRefused_of_misaligned_store (mis : aligned ea w = false) :
    AccessRefused i s .unalignedAccess ea .store w := by
  rw [storeFrom_eq, mis, if_neg Bool.false_ne_true] at h
  exact ⟨_, _, h, rfl, rfl, rfl, rfl, rfl, nothingWritten_reportFault_template s _⟩

end

/-! ## What a load receives, extended (R116 to R120) -/

/-- The low bits of a zero-extended value are the value. -/
theorem extractLsb'_zero_setWidth {n : Nat} (hn : n ≤ 32) (v : BitVec n) : (v.setWidth 32).extractLsb' 0 n = v := by
  rw [← BitVec.setWidth_eq_extractLsb' hn, BitVec.setWidth_setWidth_of_le v hn, BitVec.setWidth_eq]

section
variable {s : State} {a : Word} (hin : inBounds s a = true)
include hin

theorem memRead_byte_inside : memRead s a .byte = (s.mem.read a.toNat).setWidth 32 := by rw [memRead, if_pos hin]

theorem memRead_half_inside :
    memRead s a .half = (s.mem.read (a.toNat + 1) ++ s.mem.read a.toNat : Half).setWidth 32 := by
  rw [memRead, if_pos hin]
  rfl

theorem signExtendByte_memRead : signExtendByte (memRead s a .byte) = (s.mem.read a.toNat).signExtend 32 := by
  rw [memRead_byte_inside hin, signExtendByte, extractLsb'_zero_setWidth (by decide)]

theorem zeroExtendByte_memRead : zeroExtendByte (memRead s a .byte) = (s.mem.read a.toNat).setWidth 32 := by
  rw [memRead_byte_inside hin, zeroExtendByte, extractLsb'_zero_setWidth (by decide)]

theorem signExtendHalf_memRead :
    signExtendHalf (memRead s a .half) =
      (s.mem.read (a.toNat + 1) ++ s.mem.read a.toNat : Half).signExtend 32 := by
  rw [memRead_half_inside hin, signExtendHalf, extractLsb'_zero_setWidth (by decide)]

theorem zeroExtendHalf_memRead :
    zeroExtendHalf (memRead s a .half) =
      (s.mem.read (a.toNat + 1) ++ s.mem.read a.toNat : Half).setWidth 32 := by
  rw [memRead_half_inside hin, zeroExtendHalf, extractLsb'_zero_setWidth (by decide)]

end

/-- Every aligned load inside a region receives the bytes that are in memory, and writes nothing else. -/
theorem loadsSee_read (s : State) : LoadsSee s s.mem.read := by
  rintro rs rt imm _ rfl hin
  refine ⟨?_, ?_, fun al => ⟨?_, ?_⟩, fun al => ?_⟩
  · exact signExtendByte_memRead hin ▸ writesRegister_of_load (exec_lb ..) (aligned_byte _) hin
  · exact zeroExtendByte_memRead hin ▸ writesRegister_of_load (exec_lbu ..) (aligned_byte _) hin
  · exact signExtendHalf_memRead hin ▸ writesRegister_of_load (exec_lh ..) (aligned_half al) hin
  · exact zeroExtendHalf_memRead hin ▸ writesRegister_of_load (exec_lhu ..) (aligned_half al) hin
  · have writes := writesRegister_of_load (exec_lw rs rt imm s) (aligned_word al) hin
    rwa [id, memRead_inside_word hin] at writes

/-! ## What a store writes -/

theorem byteAfterStore_add (s : State) (ea : Word) {n k : Nat} (hk : k < n) (v : Word) :
    byteAfterStore s ea n v (ea.toNat + k) = v.extractLsb' (8 * k) 8 := by
  rw [byteAfterStore, if_pos (by omega), Nat.add_sub_cancel_left]

/-- A store inside a region, in the words of its bytes. -/
theorem storesBytes_of_store {i : Instr} {s : State} {word v ea : Word} {w : Width}
    (h : exec i s = storeFrom word w v ea s) (wf : s.mem.wf) (al : aligned ea w = true) (hin : inBounds s ea = true) :
    StoresBytes i s ea w.bytes v := by
  obtain ⟨t, run, pc, report, regs, hiLo, runState, mem⟩ := exec_store_inside h wf al hin
  refine ⟨t, run, pc, report, regs, hiLo, runState, fun k hk => ?_, fun b outside => ?_⟩
  · rw [mem, byteAfterStore_add s ea hk]
  · rw [mem, byteAfterStore, if_neg (by omega)]

end Sys2Proof.Machine

open Sys2Proof.Machine

/-- Settles O43: a load is the shared `loadInto`, and what it extends are the bytes in memory. -/
theorem loadsInsideRegions : Obligations.LoadsInsideRegions :=
  fun rs rt imm s => loadsSee_read s rs rt imm

/-- Settles O44: outside every region each load extends the 0 that MemRead answers. -/
theorem loadsOutsideRegionsReceiveZero : Obligations.LoadsOutsideRegionsReceiveZero := by
  rintro rs rt imm s _ rfl out
  exact
    ⟨loadsZero_of_load (exec_lb ..) (aligned_byte _) out rfl, loadsZero_of_load (exec_lbu ..) (aligned_byte _) out rfl,
      fun al => ⟨loadsZero_of_load (exec_lh ..) (aligned_half al) out rfl,
        loadsZero_of_load (exec_lhu ..) (aligned_half al) out rfl⟩,
      fun al => loadsZero_of_load (exec_lw ..) (aligned_word al) out rfl⟩

/-- Settles O45: alignment is asked before the region table, by loads and stores alike. -/
theorem misalignedAccessWritesNothing : Obligations.MisalignedAccessWritesNothing := by
  rintro rs rt imm s _ rfl
  exact
    ⟨fun mis => ⟨accessRefused_of_misaligned_load (exec_lh ..) (misaligned_half mis),
        accessRefused_of_misaligned_load (exec_lhu ..) (misaligned_half mis),
        accessRefused_of_misaligned_store (exec_sh ..) (misaligned_half mis)⟩,
      fun mis => ⟨accessRefused_of_misaligned_load (exec_lw ..) (misaligned_word mis),
        accessRefused_of_misaligned_store (exec_sw ..) (misaligned_word mis)⟩⟩

/-- Settles O46: a store is the shared `storeFrom`, whose MemWrite puts its bytes at the effective address. -/
theorem storesInsideRegions : Obligations.StoresInsideRegions := by
  rintro rs rt imm s _ rfl wf hin
  exact
    ⟨storesBytes_of_store (exec_sb ..) wf (aligned_byte _) hin,
      fun al => storesBytes_of_store (exec_sh ..) wf (aligned_half al) hin,
      fun al => storesBytes_of_store (exec_sw ..) wf (aligned_word al) hin⟩

/-- Settles O47: outside every region MemWrite leaves memory as it is, and the store reports. -/
theorem storesOutsideRegionsWriteNothing : Obligations.StoresOutsideRegionsWriteNothing := by
  rintro rs rt imm s _ rfl out
  exact
    ⟨accessRefused_of_store_outside (exec_sb ..) (aligned_byte _) out,
      fun al => accessRefused_of_store_outside (exec_sh ..) (aligned_half al) out,
      fun al => accessRefused_of_store_outside (exec_sw ..) (aligned_word al) out⟩

end

section
/-! PROOF. What is seen of a store (20_memory.md R43, R48, R50): every byte of memory after it is known, so a load and
the next fetch, which read memory byte by byte, receive those bytes. -/

namespace Sys2Proof.Machine

/-! ## The bytes after a store -/

/-- A state whose memory holds these bytes shows them to every load. -/
theorem loadsSee_of_read_eq {t : State} {byteAt : Nat → Byte} (h : t.mem.read = byteAt) : LoadsSee t byteAt :=
  h ▸ loadsSee_read t

theorem byteAfterStore_self (s : State) (ea : Word) {n : Nat} (hn : 0 < n) (v : Word) :
    byteAfterStore s ea n v ea.toNat = v.extractLsb' 0 8 :=
  byteAfterStore_add s ea hn v

/-- The four bytes of a stored word, put together again (R43). -/
theorem byteAfterStore_word (s : State) (ea v : Word) :
    byteAfterStore s ea 4 v (ea.toNat + 3) ++ byteAfterStore s ea 4 v (ea.toNat + 2) ++
      byteAfterStore s ea 4 v (ea.toNat + 1) ++ byteAfterStore s ea 4 v ea.toNat = v := by
  rw [byteAfterStore_add s ea (by decide), byteAfterStore_add s ea (by decide), byteAfterStore_add s ea (by decide),
    byteAfterStore_self s ea (by decide)]
  exact wordOfBytes_bytes v

/-- The two bytes of half `j` of a stored word are that half (R43). -/
theorem byteAfterStore_half (s : State) (ea v : Word) {j : Nat} (hj : j < 2) :
    byteAfterStore s ea 4 v (ea.toNat + 2 * j + 1) ++ byteAfterStore s ea 4 v (ea.toNat + 2 * j) =
      v.extractLsb' (16 * j) 16 := by
  rw [Nat.add_assoc, byteAfterStore_add s ea (by omega), byteAfterStore_add s ea (by omega),
    show 8 * (2 * j) = 16 * j by omega]
  exact BitVec.extractLsb'_append_extractLsb'_eq_extractLsb' (by omega)

/-! ## Loads inside a stored word -/

/-- The address of a byte of an aligned word, as a number: nothing wraps around. -/
theorem toNat_add_of_word {ea : Word} (al : ea.toNat % 4 = 0) {k : Nat} (hk : k < 4) :
    (ea + BitVec.ofNat 32 k).toNat = ea.toNat + k := by
  rw [BitVec.toNat_add, BitVec.toNat_ofNat]
  omega

/-- The bytes of an aligned word in a region are in a region. -/
theorem inBounds_add_of_word {t : State} (adm : regionsAdmissible t.regions = true) {ea : Word}
    (al : ea.toNat % 4 = 0) (hin : inBounds t ea = true) {k : Nat} (hk : k < 4) :
    inBounds t (ea + BitVec.ofNat 32 k) = true := by
  obtain ⟨-, inside⟩ := inBounds_add_of_aligned (w := .word) adm (aligned_word al) hin hk
  rwa [← toNat_add_of_word al hk, BitVec.ofNat_toNat, BitVec.setWidth_eq] at inside

/-- After a word was stored, the loads of the word, of its halves and of its bytes receive them (R43). -/
theorem loads_of_storedWord {s t : State} {ea v : Word} (adm : regionsAdmissible t.regions = true)
    (al : ea.toNat % 4 = 0) (hin : inBounds t ea = true) (sees : LoadsSee t (byteAfterStore s ea 4 v))
    (base d : RegIdx) (off : Imm16) :
    (t.reg base + off.signExtend 32 = ea → WritesRegister (.lw base d off) t d v) ∧
      (∀ j : Nat, j < 2 → t.reg base + off.signExtend 32 = ea + BitVec.ofNat 32 (2 * j) →
        WritesRegister (.lh base d off) t d ((v.extractLsb' (16 * j) 16).signExtend 32) ∧
        WritesRegister (.lhu base d off) t d ((v.extractLsb' (16 * j) 16).setWidth 32)) ∧
      (∀ k : Nat, k < 4 → t.reg base + off.signExtend 32 = ea + BitVec.ofNat 32 k →
        WritesRegister (.lb base d off) t d ((v.extractLsb' (8 * k) 8).signExtend 32) ∧
        WritesRegister (.lbu base d off) t d ((v.extractLsb' (8 * k) 8).setWidth 32)) := by
  refine ⟨fun at_ => ?_, fun j hj at_ => ?_, fun k hk at_ => ?_⟩
  · obtain ⟨-, -, -, lw⟩ := sees base d off ea at_.symm hin
    exact byteAfterStore_word s ea v ▸ lw al
  · have inside := inBounds_add_of_word adm al hin (k := 2 * j) (by omega)
    have number := toNat_add_of_word al (k := 2 * j) (by omega)
    obtain ⟨-, -, halves, -⟩ := sees base d off _ at_.symm inside
    rw [number, byteAfterStore_half s ea v hj] at halves
    exact halves (by omega)
  · obtain ⟨lb, lbu, -⟩ := sees base d off _ at_.symm (inBounds_add_of_word adm al hin hk)
    rw [toNat_add_of_word al hk, byteAfterStore_add s ea hk] at lb lbu
    exact ⟨lb, lbu⟩

/-! ## A load and the next fetch after a store -/

theorem aligned_of_fetchable {s : State} {a : Word} (h : fetchable s a = true) : aligned a .word = true :=
  ((Bool.and_eq_true ..).mp h).1

section
variable {i : Instr} {s : State} {word v ea : Word} {w : Width} (h : exec i s = storeFrom word w v ea s)
  (wf : s.mem.wf) (al : aligned ea w = true) (hin : inBounds s ea = true)
include h wf al hin

theorem loadsSee_of_store :
    ∃ t, exec i s = .next t ∧ LoadsSee t (byteAfterStore s ea w.bytes v) ∧ t.regions = s.regions := by
  obtain ⟨t, run, -, -, -, -, ⟨-, -, -, regions, -⟩, mem⟩ := exec_store_inside h wf al hin
  exact ⟨t, run, loadsSee_of_read_eq mem, regions⟩

theorem nextFetchSees_of_store (canFetch : fetchable s (s.pc + 4#32) = true) (fetches : Fetches s i) :
    NextFetchSees s (byteAfterStore s ea w.bytes v) := by
  obtain ⟨t, run, pc, -, -, -, ⟨-, -, -, regions, -⟩, mem⟩ := exec_store_inside h wf al hin
  obtain ⟨u, run', stepped⟩ := step_of_fetches fetches
  obtain rfl := Host.Outcome.next.inj (run.symm.trans run')
  have canFetch' : fetchable (commit t) (commit t).pc = true := by
    rwa [commit_pc, pc, fetchable, inBounds_congr (show (commit t).regions = s.regions from regions)]
  refine ⟨commit t, stepped, pc, ?_⟩
  rw [fetch_of_fetchable canFetch', ← mem]
  rfl

end

end Sys2Proof.Machine

open Sys2Proof.Machine

/-- Settles O48: after the store memory holds `byteAfterStore` at every address, and every load receives the bytes that
memory holds. -/
theorem loadsSeeTheLastStore : Obligations.LoadsSeeTheLastStore := by
  rintro rs rt imm s _ ⟨-, wf, -, adm⟩ rfl hin
  refine ⟨?_, fun al => ?_, fun al => ?_⟩
  · obtain ⟨t, run, sees, -⟩ := loadsSee_of_store (exec_sb rs rt imm s) wf (aligned_byte _) hin
    exact ⟨t, run, sees⟩
  · obtain ⟨t, run, sees, -⟩ := loadsSee_of_store (exec_sh rs rt imm s) wf (aligned_half al) hin
    exact ⟨t, run, sees⟩
  · obtain ⟨t, run, sees, regions⟩ := loadsSee_of_store (exec_sw rs rt imm s) wf (aligned_word al) hin
    exact ⟨t, run, sees,
      loads_of_storedWord (regions.symm ▸ adm) al ((inBounds_congr regions _).trans hin) sees⟩

/-- Settles O49: the store's cycle commits the bytes of `byteAfterStore`, and the next fetch reads four of them. -/
theorem nextFetchSeesTheStore : Obligations.NextFetchSeesTheStore := by
  rintro rs rt imm s _ ⟨-, wf, -, -⟩ rfl hin canFetch
  refine ⟨nextFetchSees_of_store (w := .byte) (exec_sb ..) wf (aligned_byte _) hin canFetch,
    fun al => nextFetchSees_of_store (w := .half) (exec_sh ..) wf (aligned_half al) hin canFetch,
    fun al => nextFetchSees_of_store (w := .word) (exec_sw ..) wf (aligned_word al) hin canFetch, fun here fetches => ?_⟩
  have al : aligned (s.reg rs + imm.signExtend 32) .word = true := here.symm ▸ aligned_of_fetchable canFetch
  obtain ⟨t, stepped, pc, fetched⟩ := nextFetchSees_of_store (exec_sw ..) wf al hin canFetch fetches
  rw [pc, ← here, Width.bytes, byteAfterStore_word] at fetched
  exact ⟨t, stepped, fetched⟩

end

section
/-! PROOF. Reset, the loading of a program and the host's accesses (20_memory.md R51, R53, 70_reset_and_hazards.md R158
to R166): reset is the loading of `PROGRAM` into the blank state, and a word the host writes is MemWrite's. -/

namespace Sys2Proof.Machine

/-! ## The state after reset -/

theorem reset_reg (r : RegIdx) : State.reset.reg r = 0#32 := by
  unfold State.reg
  split
  · rfl
  · exact Vector.getElem_replicate ..

theorem reset_fetchable : fetchable State.reset State.reset.pc = true := by decide

/-! ## Loading a program (R51) -/

/-- The bytes after `load_program` of words that do not wrap around the address space. -/
theorem loadProgram_mem {s : State} (wf : s.mem.wf) {words : List Word}
    (fits : 0x00400000 + 4 * words.length ≤ 2 ^ 32) :
    (∀ b, b < 0x00400000 ∨ 0x00400000 + 4 * words.length ≤ b →
      (loadProgram s words).1.mem.read b = s.mem.read b) ∧
    (∀ (k : Nat) (h : k < words.length),
      (inBounds s (0x00400000#32 + BitVec.ofNat 32 (4 * k)) = true →
        (loadProgram s words).1.mem.readWord (0x00400000 + 4 * k) = words[k]) ∧
      (inBounds s (0x00400000#32 + BitVec.ofNat 32 (4 * k)) = false →
        ∀ j : Nat, j < 4 →
          (loadProgram s words).1.mem.read (0x00400000 + 4 * k + j) = s.mem.read (0x00400000 + 4 * k + j))) :=
  loadWords_mem words (a := Config.textBase) wf fits

theorem loadProgram_reports (s : State) (words : List Word) :
    (loadProgram s words).2 =
      (List.range words.length).filterMap
        (fun k => hostWriteReport s (0x00400000#32 + BitVec.ofNat 32 (4 * k))) :=
  loadWords_reports words s Config.textBase

/-! ## The host's reset (R158) -/

/-- Reset is the loading of the program into the blank state, which changes memory and the word count only. -/
theorem hostReset_frame (s : State) :
    (hostReset s).1 =
      { blankState s.regions s.program with
        mem := (hostReset s).1.mem
        programWordCount := BitVec.ofNat 32 s.program.length } :=
  loadProgram_frame ..

theorem hostReset_congr {s t : State} (regions : t.regions = s.regions) (program : t.program = s.program) :
    hostReset t = hostReset s := by
  rw [hostReset, hostReset, regions, program]

theorem readWord_of_zero {m : Memory} {a : Nat} (h : ∀ j, j < 4 → m.read (a + j) = 0#8) : m.readWord a = 0#32 := by
  rw [Memory.readWord, show m.read a = 0#8 from h 0 (by decide), h 1 (by decide), h 2 (by decide), h 3 (by decide)]
  rfl

/-- The memory of reset: the program's words inside a region and 0 everywhere else. -/
theorem hostReset_mem (s : State) (fits : 0x00400000 + 4 * s.program.length ≤ 2 ^ 32) :
    (∀ (k : Nat) (h : k < s.program.length),
      (hostReset s).1.mem.readWord (0x00400000 + 4 * k) =
        if inBounds s (0x00400000#32 + BitVec.ofNat 32 (4 * k)) = true then s.program[k] else 0#32) ∧
    (∀ b : Nat, b < 0x00400000 ∨ 0x00400000 + 4 * s.program.length ≤ b → (hostReset s).1.mem.read b = 0#8) := by
  obtain ⟨outside, words⟩ := loadProgram_mem (s := blankState s.regions s.program) reset_wf fits
  refine ⟨fun k hk => ?_, fun b hb => outside b hb⟩
  obtain ⟨placed, dropped⟩ := words k hk
  split
  · next inside => exact placed inside
  · next out => exact readWord_of_zero (dropped (Bool.eq_false_iff.mpr out))

/-! ## The host's memory access (R53) -/

theorem writeMemoryWord_aligned {a : Word} (al : a.toNat % 4 = 0) (s : State) (v : Word) :
    writeMemoryWord s a v = (memWrite s a .word v, hostWriteReport s a) := by
  rw [writeMemoryWord, if_pos (aligned_word al)]

theorem readMemoryWord_aligned {a : Word} (al : a.toNat % 4 = 0) (s : State) :
    readMemoryWord s a =
      (some (memRead s a .word), outOfBoundsReport s a (hostReport .outOfBoundsMemoryAccess a .load)) := by
  rw [readMemoryWord, if_pos (aligned_word al)]

theorem readMemoryWord_writeMemoryWord {s : State} (wf : s.mem.wf) {a : Word} (al : a.toNat % 4 = 0)
    (hin : inBounds s a = true) (v : Word) :
    (writeMemoryWord s a v).2 = none ∧ readMemoryWord (writeMemoryWord s a v).1 a = (some v, none) := by
  have hin' : inBounds (memWrite s a .word v) a = true := (inBounds_congr (memWrite_regions ..) a).trans hin
  rw [writeMemoryWord_aligned al, readMemoryWord_aligned al, memRead_inside_word hin', readWord_memWrite wf hin,
    outOfBoundsReport_inside hin']
  exact ⟨outOfBoundsReport_inside hin _, rfl⟩

theorem hostAccess_outside {s : State} {a : Word} (al : a.toNat % 4 = 0) (out : inBounds s a = false) (v : Word) :
    writeMemoryWord s a v = (s, some (hostReport .outOfBoundsMemoryAccess a .store)) ∧
      readMemoryWord s a = (some 0#32, some (hostReport .outOfBoundsMemoryAccess a .load)) := by
  rw [writeMemoryWord_aligned al, readMemoryWord_aligned al, memWrite_outOfBounds out, memRead_outside out,
    outOfBoundsReport_outside out, hostWriteReport, outOfBoundsReport_outside out]
  exact ⟨rfl, rfl⟩

theorem hostAccess_misaligned {a : Word} (mis : a.toNat % 4 ≠ 0) (s : State) (v : Word) :
    writeMemoryWord s a v = (s, some (hostReport .unalignedAccess a .store)) ∧
      readMemoryWord s a = (none, some (hostReport .unalignedAccess a .load)) := by
  rw [writeMemoryWord, readMemoryWord, misaligned_word mis]
  exact ⟨rfl, rfl⟩

/-! ## The host's register access (R166) -/

theorem hostIndex_of_lt {i : Nat} (h : i < 32) : hostIndex i = .ok (BitVec.ofNat 5 i) := if_pos h

theorem hostIndex_of_ge {i : Nat} (h : 32 ≤ i) : hostIndex i = .error (.registerIndexOutOfRange i) :=
  if_neg (Nat.not_lt.mpr h)

theorem ofNat_five_inj {i j : Nat} (hi : i < 32) (hj : j < 32) : BitVec.ofNat 5 i = BitVec.ofNat 5 j ↔ i = j := by
  rw [← BitVec.toNat_inj, BitVec.toNat_ofNat, BitVec.toNat_ofNat, Nat.mod_eq_of_lt hi, Nat.mod_eq_of_lt hj]

theorem writeRegister_of_lt {i : Nat} (h : i < 32) (s : State) (v : Word) :
    writeRegister s i v = .next (s.setReg (BitVec.ofNat 5 i) v) := by
  rw [writeRegister, hostIndex_of_lt h]

theorem readRegister_of_lt {i : Nat} (h : i < 32) (s : State) :
    readRegister s i = .ok (s.reg (BitVec.ofNat 5 i)) := by
  rw [readRegister, hostIndex_of_lt h]
  rfl

theorem readRegister_of_ge {i : Nat} (h : 32 ≤ i) (s : State) :
    readRegister s i = .error (.registerIndexOutOfRange i) := by
  rw [readRegister, hostIndex_of_ge h]
  rfl

theorem setReg_frame (s : State) (r : RegIdx) (v : Word) : s.setReg r v = { s with regs := (s.setReg r v).regs } := by
  unfold State.setReg
  split <;> rfl

theorem readRegister_setReg_self {i : Nat} (h : i < 32) (s : State) (v : Word) :
    readRegister (s.setReg (BitVec.ofNat 5 i) v) i = .ok (if i = 0 then 0#32 else v) := by
  rw [readRegister_of_lt h, State.reg_setReg_self]
  simp only [ofNat_five_inj h (j := 0) (by decide)]

theorem readRegister_setReg_of_ne {i j : Nat} (h : i < 32) (ne : j ≠ i) (s : State) (v : Word) :
    readRegister (s.setReg (BitVec.ofNat 5 i) v) j = readRegister s j := by
  by_cases hj : j < 32
  · have other : BitVec.ofNat 5 j ≠ BitVec.ofNat 5 i := fun eq => ne ((ofNat_five_inj hj h).mp eq)
    rw [readRegister_of_lt hj, readRegister_of_lt hj, State.reg_setReg_of_ne _ other]
  · rw [readRegister_of_ge (Nat.not_lt.mp hj), readRegister_of_ge (Nat.not_lt.mp hj)]

/-! ## The host's step(n) (R164) -/

theorem hostStep_succ {s t : State} (run : s.running = true) (h : step s = .next t) (n : Nat) :
    hostStep (n + 1) s = ((hostStep n t).1, t.report.toList ++ (hostStep n t).2) := by
  rw [hostStep, if_pos run, h]

theorem run_succ {s t : State} (h : step s = .next t) (n : Nat) :
    Sys2Proof.core.run (n + 1) s = Sys2Proof.core.run n t := by
  have stepped : Sys2Proof.core.step s = .next t := h
  simp only [Host.Core.run, stepped]

theorem run_of_halted {s : State} (adm : regionsAdmissible s.regions = true) (halted : s.running = false) (n : Nat) :
    Sys2Proof.core.run n s = .next s := by
  induction n with
  | zero => rfl
  | succ n ih => rw [run_succ (step_of_halted adm halted), ih]

/-- step(n) ends where n steps end: a halted core's further steps change nothing. -/
theorem hostStep_eq_run (n : Nat) {s : State} (adm : regionsAdmissible s.regions = true) :
    (hostStep n s).1 = Sys2Proof.core.run n s := by
  induction n generalizing s with
  | zero => rfl
  | succ n ih =>
    cases run : s.running with
    | false => exact (congrArg Prod.fst (hostStep_of_halted run _)).trans (run_of_halted adm run _).symm
    | true =>
      obtain ⟨t, stepped⟩ := step_answers adm
      rw [hostStep_succ run stepped, run_succ stepped]
      exact ih (step_regions_eq stepped ▸ adm)

/-- step(n) runs `k` of its `n` cycles, all of them while the core keeps running, and counts and reports by cycle. -/
theorem hostStep_counts (n : Nat) {s : State} (adm : regionsAdmissible s.regions = true) :
    ∃ (t : State) (k : Nat), (hostStep n s).1 = .next t ∧ k ≤ n ∧ (t.running = true → k = n) ∧
      t.instructionCount = s.instructionCount + BitVec.ofNat 32 k ∧ (hostStep n s).2.length ≤ k := by
  induction n generalizing s with
  | zero => exact ⟨s, 0, rfl, Nat.le_refl _, fun _ => rfl, (BitVec.add_zero _).symm, Nat.le_refl _⟩
  | succ n ih =>
    cases run : s.running with
    | false =>
      rw [hostStep_of_halted run]
      exact ⟨s, 0, rfl, Nat.zero_le _, fun on => absurd (run.symm.trans on) Bool.false_ne_true,
        (BitVec.add_zero _).symm, Nat.le_refl _⟩
    | true =>
      obtain ⟨u, stepped⟩ := step_answers adm
      obtain ⟨t, k, ends, le, all, count, reports⟩ := ih (s := u) (step_regions_eq stepped ▸ adm)
      have oneReport : u.report.toList.length ≤ 1 := by cases u.report <;> simp
      rw [hostStep_succ run stepped]
      refine ⟨t, k + 1, ends, Nat.succ_le_succ le, fun on => congrArg (· + 1) (all on), ?_, ?_⟩
      · rw [count, step_counts_of_running run stepped, BitVec.add_assoc, Nat.add_comm k, BitVec.ofNat_add]
      · rw [List.length_append]
        omega

/-! ## The word placed for the next fetch -/

theorem inBounds_textBase {s : State} (adm : regionsAdmissible s.regions = true) :
    inBounds s Config.textBase = true := by
  simp only [regionsAdmissible, Bool.and_eq_true] at adm
  obtain ⟨-, one⟩ := adm
  have found : 0 < (s.regions.filter (fun r => r.contains Config.textBase)).length := by
    rw [eq_of_beq one]
    decide
  obtain ⟨r, hr⟩ := List.exists_mem_of_length_pos found
  exact (inBounds_iff ..).mpr ⟨r, List.mem_filter.mp hr⟩

theorem fetchable_textBase {s : State} (adm : regionsAdmissible s.regions = true) :
    fetchable s Config.textBase = true := by
  rw [fetchable, inBounds_textBase adm]
  rfl

/-- The address a word is placed at, which is one a word can be fetched from. -/
def placeAddress (s : State) : Word := if fetchable s s.pc then s.pc else Config.textBase

theorem fetchable_placeAddress {s : State} (adm : regionsAdmissible s.regions = true) :
    fetchable s (placeAddress s) = true := by
  unfold placeAddress
  split
  · assumption
  · exact fetchable_textBase adm

theorem placeFetchWord_eq (s : State) (w : Word) :
    placeFetchWord s w = memWrite ((s.setPc (placeAddress s)).setRunning true) (placeAddress s) .word w := rfl

theorem fetch_placeFetchWord {s : State} (wf : s.mem.wf) (adm : regionsAdmissible s.regions = true) (w : Word) :
    fetch (placeFetchWord s w) = .word w none := by
  have canFetch := fetchable_placeAddress adm
  have hin : inBounds ((s.setPc (placeAddress s)).setRunning true) (placeAddress s) = true :=
    ((Bool.and_eq_true ..).mp canFetch).2
  have pc : (placeFetchWord s w).pc = placeAddress s := memWrite_pc ..
  have canFetch' : fetchable (placeFetchWord s w) (placeFetchWord s w).pc = true := by
    rwa [pc, fetchable, inBounds_congr (show (placeFetchWord s w).regions = s.regions from memWrite_regions ..)]
  rw [fetch_of_fetchable canFetch', pc, placeFetchWord_eq,
    readWord_memWrite (s := (s.setPc (placeAddress s)).setRunning true) wf hin]

end Sys2Proof.Machine

open Sys2Proof Sys2Proof.Machine

/-- Settles O21: the fields of the reset state, and a load of no words. -/
theorem resetStateValues : Obligations.ResetStateValues :=
  ⟨rfl, reset_reg, rfl, rfl, rfl, rfl, fun _ => rfl, reset_fetchable, rfl, rfl, rfl, rfl, rfl⟩

/-- Settles O22: reset loads the program into the blank state, which depends on the region table and the program only,
and reset keeps both. -/
theorem hostResetIsIdempotent : Obligations.HostResetIsIdempotent := by
  rintro s _ rfl
  refine ⟨?_, hostReset_mem s, loadProgram_reports .., fun s' => hostReset_congr, ?_⟩
  · rw [hostReset_frame]
    exact ⟨rfl, reset_reg, rfl, rfl, rfl, rfl, rfl, rfl, rfl, rfl⟩
  · exact hostReset_congr (by rw [hostReset_frame]; rfl) (by rw [hostReset_frame]; rfl)

/-- Settles O56: the loading of words from `TEXT_BASE` up, and its frame. -/
theorem loadProgramPlacesTheWords : Obligations.LoadProgramPlacesTheWords := by
  rintro s words ⟨-, wf, -, -⟩ fits
  obtain ⟨outside, placed⟩ := loadProgram_mem wf fits
  exact ⟨placed, loadProgram_reports s words, loadProgram_frame s words, outside⟩

/-- Settles O57: alignment is asked before the region table, and inside a region a word written reads back. -/
theorem hostMemoryRoundTrip : Obligations.HostMemoryRoundTrip := by
  rintro s a v ⟨-, wf, -, -⟩
  exact ⟨fun al hin => readMemoryWord_writeMemoryWord wf al hin v, fun al out => hostAccess_outside al out v,
    fun mis => hostAccess_misaligned mis s v⟩

/-- Settles O58: the host's access is that of the instructions, with the index checked first. -/
theorem hostRegisterAccess : Obligations.HostRegisterAccess := by
  refine fun s i v => ⟨fun h => ?_, fun h => ⟨?_, readRegister_of_ge h s⟩⟩
  · exact ⟨_, writeRegister_of_lt h s v, readRegister_setReg_self h s v,
      fun j ne => readRegister_setReg_of_ne h ne s v, setReg_frame ..⟩
  · rw [writeRegister, hostIndex_of_ge h]

/-- Settles O59: by induction on the number of cycles asked for. -/
theorem hostStepCountsItsCycles : Obligations.HostStepCountsItsCycles :=
  fun _ n adm => ⟨hostStep_eq_run n adm, hostStep_counts n adm⟩

/-- Settles O60: the word is written at a fetchable address, where the pc is or is put. -/
theorem placedWordIsFetched : Obligations.PlacedWordIsFetched := by
  rintro s nbits w ⟨-, wf, -, adm⟩
  refine ⟨fetch_placeFetchWord wf adm _, memWrite_running .., fun canFetch => ?_⟩
  exact (memWrite_pc ..).trans (if_pos canFetch)

end

section
/-! PROOF. The non-trapping ALU instructions (41_alu.md R83 to R102): the one register each writes, and each result in
the terms of the statements: exact integers, halves and powers of 2. -/

namespace Sys2Proof.Machine

/-! ## The one register each instruction writes -/

theorem exec_addu (rs rt rd : RegIdx) (shamt : BitVec 5) (s : State) :
    exec (.addu rs rt rd shamt) s = writeResult rd (s.reg rs + s.reg rt) s := rfl

theorem exec_addiu (rs rt : RegIdx) (imm : Imm16) (s : State) :
    exec (.addiu rs rt imm) s = writeResult rt (s.reg rs + signedImmediate imm) s := rfl

theorem exec_sub (rs rt rd : RegIdx) (shamt : BitVec 5) (s : State) :
    exec (.sub rs rt rd shamt) s = writeResult rd (s.reg rs - s.reg rt) s := rfl

theorem exec_subu (rs rt rd : RegIdx) (shamt : BitVec 5) (s : State) :
    exec (.subu rs rt rd shamt) s = writeResult rd (s.reg rs - s.reg rt) s := rfl

theorem exec_and (rs rt rd : RegIdx) (shamt : BitVec 5) (s : State) :
    exec (.and rs rt rd shamt) s = writeResult rd (s.reg rs &&& s.reg rt) s := rfl

theorem exec_andi (rs rt : RegIdx) (imm : Imm16) (s : State) :
    exec (.andi rs rt imm) s = writeResult rt (s.reg rs &&& logicalImmediate imm) s := rfl

theorem exec_or (rs rt rd : RegIdx) (shamt : BitVec 5) (s : State) :
    exec (.or rs rt rd shamt) s = writeResult rd (s.reg rs ||| s.reg rt) s := rfl

theorem exec_ori (rs rt : RegIdx) (imm : Imm16) (s : State) :
    exec (.ori rs rt imm) s = writeResult rt (s.reg rs ||| logicalImmediate imm) s := rfl

theorem exec_xor (rs rt rd : RegIdx) (shamt : BitVec 5) (s : State) :
    exec (.xor rs rt rd shamt) s = writeResult rd (s.reg rs ^^^ s.reg rt) s := rfl

theorem exec_xori (rs rt : RegIdx) (imm : Imm16) (s : State) :
    exec (.xori rs rt imm) s = writeResult rt (s.reg rs ^^^ logicalImmediate imm) s := rfl

theorem exec_nor (rs rt rd : RegIdx) (shamt : BitVec 5) (s : State) :
    exec (.nor rs rt rd shamt) s = writeResult rd (~~~(s.reg rs ||| s.reg rt)) s := rfl

theorem exec_sll (rs rt rd : RegIdx) (shamt : BitVec 5) (s : State) :
    exec (.sll rs rt rd shamt) s = writeResult rd (s.reg rt <<< shamt.toNat) s := rfl

theorem exec_srl (rs rt rd : RegIdx) (shamt : BitVec 5) (s : State) :
    exec (.srl rs rt rd shamt) s = writeResult rd (s.reg rt >>> shamt.toNat) s := rfl

theorem exec_sra (rs rt rd : RegIdx) (shamt : BitVec 5) (s : State) :
    exec (.sra rs rt rd shamt) s = writeResult rd ((s.reg rt).sshiftRight shamt.toNat) s := rfl

theorem exec_slt (rs rt rd : RegIdx) (shamt : BitVec 5) (s : State) :
    exec (.slt rs rt rd shamt) s = writeResult rd (zeroOrOne (lessSigned (s.reg rs) (s.reg rt))) s := rfl

theorem exec_slti (rs rt : RegIdx) (imm : Imm16) (s : State) :
    exec (.slti rs rt imm) s = writeResult rt (zeroOrOne (lessSigned (s.reg rs) (signedImmediate imm))) s := rfl

theorem exec_sltu (rs rt rd : RegIdx) (shamt : BitVec 5) (s : State) :
    exec (.sltu rs rt rd shamt) s = writeResult rd (zeroOrOne (lessUnsigned (s.reg rs) (s.reg rt))) s := rfl

theorem exec_sltiu (rs rt : RegIdx) (imm : Imm16) (s : State) :
    exec (.sltiu rs rt imm) s = writeResult rt (zeroOrOne (lessUnsigned (s.reg rs) (signedImmediate imm))) s := rfl

theorem exec_lui (rs rt : RegIdx) (imm : Imm16) (s : State) :
    exec (.lui rs rt imm) s = writeResult rt (upperImmediate imm) s := rfl

/-- The result in another form. -/
theorem writesRegister_of_value {i : Instr} {s : State} {d : RegIdx} {v v' : Word} (h : exec i s = writeResult d v s)
    (value : v = v') : WritesRegister i s d v' :=
  value ▸ writesRegister_of_exec_eq h

/-! ## Sums and differences as exact integers modulo 2^32 (R83 to R86) -/

theorem add_eq_ofNat (a b : Word) : a + b = BitVec.ofNat 32 (a.toNat + b.toNat) := by
  rw [BitVec.ofNat_add, BitVec.ofNat_toNat, BitVec.ofNat_toNat, BitVec.setWidth_eq, BitVec.setWidth_eq]

theorem sub_eq_ofInt_toInt (a b : Word) : a - b = BitVec.ofInt 32 (a.toInt - b.toInt) := by
  rw [Int.sub_eq_add_neg, BitVec.ofInt_add, BitVec.ofInt_neg, BitVec.ofInt_toInt, BitVec.ofInt_toInt,
    BitVec.sub_eq_add_neg]

theorem sub_eq_ofInt_toNat (a b : Word) : a - b = BitVec.ofInt 32 (a.toNat - b.toNat) := by
  rw [Int.sub_eq_add_neg, BitVec.ofInt_add, BitVec.ofInt_neg, BitVec.ofInt_natCast, BitVec.ofInt_natCast,
    BitVec.ofNat_toNat, BitVec.ofNat_toNat, BitVec.setWidth_eq, BitVec.setWidth_eq, BitVec.sub_eq_add_neg]

theorem add_signedImmediate_eq_ofInt (a : Word) (imm : Imm16) :
    a + signedImmediate imm = BitVec.ofInt 32 (a.toInt + imm.toInt) := by
  rw [BitVec.ofInt_add, BitVec.ofInt_toInt]
  rfl

/-! ## Logic with an immediate, by halves (R88, R90, R92) -/

theorem halves_append (a : Word) : a.extractLsb' 16 16 ++ a.extractLsb' 0 16 = a := by
  have joined : a.extractLsb' 16 16 ++ a.extractLsb' 0 16 = a.extractLsb' 0 (16 + 16) :=
    BitVec.extractLsb'_append_extractLsb'_eq_extractLsb' (start₁ := 0) rfl
  rw [joined, BitVec.extractLsb'_eq_self]

theorem logicalImmediate_eq_append (imm : Imm16) : logicalImmediate imm = 0#16 ++ imm :=
  BitVec.setWidth_eq_append (by decide)

theorem and_logicalImmediate (a : Word) (imm : Imm16) :
    a &&& logicalImmediate imm = 0#16 ++ (a.extractLsb' 0 16 &&& imm) := by
  conv_lhs => rw [← halves_append a, logicalImmediate_eq_append, BitVec.and_append, BitVec.and_zero]

theorem or_logicalImmediate (a : Word) (imm : Imm16) :
    a ||| logicalImmediate imm = a.extractLsb' 16 16 ++ (a.extractLsb' 0 16 ||| imm) := by
  conv_lhs => rw [← halves_append a, logicalImmediate_eq_append, BitVec.or_append, BitVec.or_zero]

theorem xor_logicalImmediate (a : Word) (imm : Imm16) :
    a ^^^ logicalImmediate imm = a.extractLsb' 16 16 ++ (a.extractLsb' 0 16 ^^^ imm) := by
  conv_lhs => rw [← halves_append a, logicalImmediate_eq_append, BitVec.xor_append, BitVec.xor_zero]

theorem upperImmediate_eq_shiftLeft (imm : Imm16) : upperImmediate imm = imm.setWidth 32 <<< 16 := by
  rw [BitVec.shiftLeft_eq_concat_of_lt (by decide), extractLsb'_zero_setWidth (by decide)]
  rfl

/-! ## Shifts as multiplication and division (R95 to R97) -/

theorem shiftLeft_eq_ofNat (a : Word) (n : Nat) : a <<< n = BitVec.ofNat 32 (a.toNat * 2 ^ n) := by
  apply BitVec.eq_of_toNat_eq
  rw [BitVec.toNat_shiftLeft, BitVec.toNat_ofNat, Nat.shiftLeft_eq]

theorem ushiftRight_eq_ofNat (a : Word) (n : Nat) : a >>> n = BitVec.ofNat 32 (a.toNat / 2 ^ n) := by
  apply BitVec.eq_of_toNat_eq
  rw [BitVec.toNat_ushiftRight, BitVec.toNat_ofNat, Nat.shiftRight_eq_div_pow,
    Nat.mod_eq_of_lt (Nat.lt_of_le_of_lt (Nat.div_le_self ..) a.isLt)]

theorem sshiftRight_eq_ofInt (a : Word) (n : Nat) :
    a.sshiftRight n = BitVec.ofInt 32 (a.toInt.fdiv (2 ^ n)) := by
  rw [Int.fdiv_eq_ediv_of_nonneg _ (by positivity), BitVec.sshiftRight, Int.shiftRight_eq_div_pow, Nat.cast_pow,
    Nat.cast_ofNat]

/-! ## Comparisons (R98 to R101) -/

theorem zeroOrOne_lessSigned (a b : Word) :
    zeroOrOne (lessSigned a b) = if a.toInt < b.toInt then 1#32 else 0#32 :=
  ite_cond_congr (propext decide_eq_true_iff)

theorem zeroOrOne_lessUnsigned (a b : Word) :
    zeroOrOne (lessUnsigned a b) = if a.toNat < b.toNat then 1#32 else 0#32 :=
  ite_cond_congr (propext decide_eq_true_iff)

theorem zeroOrOne_lessSigned_immediate (a : Word) (imm : Imm16) :
    zeroOrOne (lessSigned a (signedImmediate imm)) = if a.toInt < imm.toInt then 1#32 else 0#32 := by
  rw [zeroOrOne_lessSigned, signedImmediate_toInt]

end Sys2Proof.Machine

open Sys2Proof.Machine

/-- Settles O30: word addition and subtraction are those of the exact integers modulo 2^32. -/
theorem nonTrappingAddSubtract : Obligations.NonTrappingAddSubtract :=
  fun _ _ _ _ _ =>
    ⟨writesRegister_of_value (exec_addu ..) (add_eq_ofNat ..),
      writesRegister_of_value (exec_sub ..) (sub_eq_ofInt_toInt ..),
      writesRegister_of_value (exec_subu ..) (sub_eq_ofInt_toNat ..)⟩

/-- Settles O31: the sign extension has the immediate's exact value. -/
theorem addImmediateUnsignedWraps : Obligations.AddImmediateUnsignedWraps :=
  fun _ _ _ _ => writesRegister_of_value (exec_addiu ..) (add_signedImmediate_eq_ofInt ..)

/-- Settles O32: each writes its bitwise operation, NOR's in the form of De Morgan. -/
theorem logicalRegisterForms : Obligations.LogicalRegisterForms :=
  fun _ _ _ _ _ =>
    ⟨writesRegister_of_exec_eq (exec_and ..), writesRegister_of_exec_eq (exec_or ..),
      writesRegister_of_exec_eq (exec_xor ..), writesRegister_of_value (exec_nor ..) BitVec.not_or⟩

/-- Settles O33: the operation goes half by half, and the immediate's upper half is 0. -/
theorem logicalImmediateForms : Obligations.LogicalImmediateForms :=
  fun _ _ _ _ =>
    ⟨writesRegister_of_value (exec_andi ..) (and_logicalImmediate ..),
      writesRegister_of_value (exec_ori ..) (or_logicalImmediate ..),
      writesRegister_of_value (exec_xori ..) (xor_logicalImmediate ..)⟩

/-- Settles O34: appending 16 zero bits is the shift by 16. -/
theorem loadUpperImmediate : Obligations.LoadUpperImmediate :=
  fun _ _ _ _ => writesRegister_of_value (exec_lui ..) (upperImmediate_eq_shiftLeft ..)

/-- Settles O35: each shift as the multiplication or division by the power of 2. -/
theorem shiftsMultiplyAndDivideByPowers : Obligations.ShiftsMultiplyAndDivideByPowers :=
  fun _ _ _ _ _ =>
    ⟨writesRegister_of_value (exec_sll ..) (shiftLeft_eq_ofNat ..),
      writesRegister_of_value (exec_srl ..) (ushiftRight_eq_ofNat ..),
      writesRegister_of_value (exec_sra ..) (sshiftRight_eq_ofInt ..)⟩

/-- Settles O36: the comparison of each form as a condition on the operands' values. -/
theorem setOnLessThanForms : Obligations.SetOnLessThanForms :=
  ⟨fun _ _ _ _ _ =>
      ⟨writesRegister_of_value (exec_slt ..) (zeroOrOne_lessSigned ..),
        writesRegister_of_value (exec_sltu ..) (zeroOrOne_lessUnsigned ..)⟩,
    fun _ _ _ _ =>
      ⟨writesRegister_of_value (exec_slti ..) (zeroOrOne_lessSigned_immediate ..),
        writesRegister_of_value (exec_sltiu ..) (zeroOrOne_lessUnsigned ..)⟩⟩

end

section
/-! PROOF. Multiply, divide and the HI/LO transfers (42_muldiv.md R104 to R113): HI and LO as the halves of the exact
product, and as remainder and quotient of the library's divisions. -/

namespace Sys2Proof.Machine

/-! ## What each instruction writes -/

theorem onlyHiLoWritten_template (hi lo : Word) (s : State) :
    OnlyHiLoWritten hi lo s (((template s).setHi hi).setLo lo) :=
  ⟨rfl, rfl, fun _ => rfl, fun _ => rfl, rfl, rfl, rfl, rfl, rfl⟩

theorem writesHiLo_of_exec_eq {i : Instr} {s : State} {hi lo : Word} (h : exec i s = writeHiLo hi lo s) :
    WritesHiLo i s hi lo :=
  ⟨_, h, rfl, rfl, onlyHiLoWritten_template hi lo s⟩

theorem divideInto_of_ne_zero {divisor : Word} (ne : divisor ≠ 0#32) (word quotient remainder : Word) (s : State) :
    divideInto word divisor quotient remainder s = writeHiLo remainder quotient s := by
  rw [divideInto_eq, if_neg ne, writeHiLo_eq]

/-- A word written to one of HI and LO is a write of both, the other with its own value. -/
theorem exec_mthi (rs rt rd : RegIdx) (shamt : BitVec 5) (s : State) :
    exec (.mthi rs rt rd shamt) s = writeHiLo (s.reg rs) s.lo s := rfl

theorem exec_mtlo (rs rt rd : RegIdx) (shamt : BitVec 5) (s : State) :
    exec (.mtlo rs rt rd shamt) s = writeHiLo s.hi (s.reg rs) s := rfl

theorem exec_mfhi (rs rt rd : RegIdx) (shamt : BitVec 5) (s : State) :
    exec (.mfhi rs rt rd shamt) s = writeResult rd s.hi s := rfl

theorem exec_mflo (rs rt rd : RegIdx) (shamt : BitVec 5) (s : State) :
    exec (.mflo rs rt rd shamt) s = writeResult rd s.lo s := rfl

theorem exec_mult (rs rt rd : RegIdx) (shamt : BitVec 5) (s : State) :
    exec (.mult rs rt rd shamt) s =
      writeProduct (BitVec.ofInt 64 ((s.reg rs).toInt * (s.reg rt).toInt)) s := rfl

theorem exec_multu (rs rt rd : RegIdx) (shamt : BitVec 5) (s : State) :
    exec (.multu rs rt rd shamt) s =
      writeProduct (BitVec.ofNat 64 ((s.reg rs).toNat * (s.reg rt).toNat)) s := rfl

/-! ## The exact product (R106, R107) -/

/-- HI and LO together are the product. -/
theorem exists_writesHiLo_of_product {i : Instr} {s : State} {p : BitVec 64} (h : exec i s = writeProduct p s) :
    ∃ hi lo : Word, (hi ++ lo : BitVec 64) = p ∧ WritesHiLo i s hi lo := by
  have joined : p.extractLsb' 32 32 ++ p.extractLsb' 0 32 = p.extractLsb' 0 (32 + 32) :=
    BitVec.extractLsb'_append_extractLsb'_eq_extractLsb' (start₁ := 0) rfl
  exact ⟨_, _, joined.trans BitVec.extractLsb'_eq_self, writesHiLo_of_exec_eq h⟩

theorem toInt_signedProduct (a b : Word) : (BitVec.ofInt 64 (a.toInt * b.toInt)).toInt = a.toInt * b.toInt := by
  have low : -2 ^ (32 * 2 - 2) ≤ a.toInt * b.toInt := BitVec.le_toInt_mul_toInt
  have high : a.toInt * b.toInt ≤ 2 ^ (32 * 2 - 2) := BitVec.toInt_mul_toInt_le
  exact BitVec.toInt_ofInt_eq_self (by decide) (by omega) (by omega)

theorem toNat_unsignedProduct (a b : Word) : (BitVec.ofNat 64 (a.toNat * b.toNat)).toNat = a.toNat * b.toNat := by
  have fits : a.toNat * b.toNat < 2 ^ 32 * 2 ^ 32 := Nat.mul_lt_mul'' a.isLt b.isLt
  exact (BitVec.toNat_ofNat ..).trans (Nat.mod_eq_of_lt fits)

/-! ## The signed division (R104, R108) -/

theorem signedQuotient_eq_sdiv (a b : Word) : signedQuotient a b = a.sdiv b := by
  apply BitVec.eq_of_toInt_eq
  rw [signedQuotient, BitVec.toInt_ofInt, BitVec.toInt_sdiv]

theorem signedRemainder_eq_srem (a b : Word) : signedRemainder a b = a.srem b := by
  rw [signedRemainder, ← BitVec.toInt_srem, BitVec.ofInt_toInt]

/-- The one quotient out of range, `-2^31 / -1`, wraps to `-2^31`, with remainder 0. -/
theorem signedDivision_out_of_range :
    signedQuotient 0x80000000#32 0xFFFFFFFF#32 = 0x80000000#32 ∧
      signedRemainder 0x80000000#32 0xFFFFFFFF#32 = 0#32 := by decide

/-- Every other quotient is the exact one. -/
theorem toInt_signedQuotient {a b : Word} (h : ¬ (a = 0x80000000#32 ∧ b = 0xFFFFFFFF#32)) :
    (signedQuotient a b).toInt = a.toInt.tdiv b.toInt := by
  rw [signedQuotient_eq_sdiv]
  exact BitVec.toInt_sdiv_of_ne_or_ne a b (Decidable.not_and_iff_or_not.mp h)

theorem toInt_signedRemainder (a b : Word) : (signedRemainder a b).toInt = a.toInt.tmod b.toInt := by
  rw [signedRemainder_eq_srem, BitVec.toInt_srem]

/-- The remainder of the truncating division is 0 or has the sign of the dividend (R104). -/
theorem tmod_eq_zero_or_sign (a b : Int) : a.tmod b = 0 ∨ (a.tmod b < 0 ↔ a < 0) := by
  have sign := Int.sign_tmod a b
  split at sign
  · exact .inl (Int.sign_eq_zero_iff_zero.mp sign)
  · exact .inr (by rw [← Int.sign_eq_neg_one_iff_neg, sign, Int.sign_eq_neg_one_iff_neg])

theorem toInt_ne_zero {b : Word} (ne : b ≠ 0#32) : b.toInt ≠ 0 :=
  fun eq => ne (BitVec.eq_of_toInt_eq eq)

/-- What is to be shown of the quotient and the remainder of a division whose quotient is in range. -/
theorem signedDivision_in_range {a b : Word} (h : ¬ (a = 0x80000000#32 ∧ b = 0xFFFFFFFF#32)) (ne : b ≠ 0#32) :
    (signedQuotient a b).toInt * b.toInt + (signedRemainder a b).toInt = a.toInt ∧
      (signedRemainder a b).toInt.natAbs < b.toInt.natAbs ∧
      ((signedRemainder a b).toInt = 0 ∨ ((signedRemainder a b).toInt < 0 ↔ a.toInt < 0)) := by
  rw [toInt_signedQuotient h, toInt_signedRemainder]
  refine ⟨Int.tdiv_mul_add_tmod .., ?_, tmod_eq_zero_or_sign ..⟩
  rw [Int.natAbs_tmod]
  exact Nat.mod_lt _ (Int.natAbs_pos.mpr (toInt_ne_zero ne))

/-! ## The unsigned division (R104, R109) -/

theorem toNat_unsignedQuotient (a b : Word) : (unsignedQuotient a b).toNat = a.toNat / b.toNat := by
  rw [unsignedQuotient, BitVec.toNat_ofNat, Nat.mod_eq_of_lt (Nat.lt_of_le_of_lt (Nat.div_le_self ..) a.isLt)]

theorem toNat_unsignedRemainder (a b : Word) : (unsignedRemainder a b).toNat = a.toNat % b.toNat := by
  rw [unsignedRemainder, BitVec.toNat_ofNat, Nat.mod_eq_of_lt (Nat.lt_of_le_of_lt (Nat.mod_le ..) a.isLt)]

end Sys2Proof.Machine

open Sys2Proof.Machine

/-- Settles O37: HI and LO together are the product, which 64 bits hold exactly. -/
theorem multiplyWritesTheExactProduct : Obligations.MultiplyWritesTheExactProduct := by
  intro rs rt rd shamt s
  obtain ⟨hi, lo, product, writes⟩ := exists_writesHiLo_of_product (exec_mult rs rt rd shamt s)
  obtain ⟨hi', lo', product', writes'⟩ := exists_writesHiLo_of_product (exec_multu rs rt rd shamt s)
  exact ⟨⟨hi, lo, product ▸ toInt_signedProduct .., writes⟩, ⟨hi', lo', product' ▸ toNat_unsignedProduct .., writes'⟩⟩

/-- Settles O38: LO and HI are the truncating quotient and remainder, exact but for the one quotient out of range. -/
theorem signedDivisionTruncates : Obligations.SignedDivisionTruncates := by
  intro rs rt rd shamt s ne
  refine ⟨_, _, writesHiLo_of_exec_eq ((exec_div rs rt rd shamt s).trans (divideInto_of_ne_zero ne ..)), ?_⟩
  split
  · next out =>
    rw [out.1, out.2]
    exact signedDivision_out_of_range
  · next inRange => exact signedDivision_in_range inRange ne

/-- Settles O39: LO and HI are quotient and remainder of the unsigned values, which fit. -/
theorem unsignedDivisionFloors : Obligations.UnsignedDivisionFloors := by
  intro rs rt rd shamt s ne
  refine ⟨_, _, writesHiLo_of_exec_eq ((exec_divu rs rt rd shamt s).trans (divideInto_of_ne_zero ne ..)), ?_⟩
  have positive : 0 < (s.reg rt).toNat := Nat.pos_of_ne_zero fun eq => ne (BitVec.eq_of_toNat_eq eq)
  rw [toNat_unsignedQuotient, toNat_unsignedRemainder]
  exact ⟨Nat.div_add_mod' .., Nat.mod_lt _ positive⟩

/-- Settles O41: MFHI and MFLO write their one register. -/
theorem moveFromHiAndLo : Obligations.MoveFromHiAndLo :=
  fun _ _ _ _ _ => ⟨writesRegister_of_exec_eq (exec_mfhi ..), writesRegister_of_exec_eq (exec_mflo ..)⟩

/-- Settles O42: MTHI and MTLO write both HI and LO, the other with its own value. -/
theorem moveToHiAndLo : Obligations.MoveToHiAndLo :=
  fun _ _ _ _ _ => ⟨writesHiLo_of_exec_eq (exec_mthi ..), writesHiLo_of_exec_eq (exec_mtlo ..)⟩

end

section
/-! PROOF. SYSCALL (45_system.md R140) and the sample words of 30_encoding.md. -/

/-- Settles O55: EXECUTE of SYSCALL looks at no register and at no bit of its word. -/
theorem syscallHaltsUnconditionally : Obligations.SyscallHaltsUnconditionally :=
  fun ignored s => Sys2Proof.Machine.exec_syscall ignored s

/-- Settles O5: nine closed words, each decoded by computation. -/
theorem sampleWordsDecode : Obligations.SampleWordsDecode := by
  unfold Obligations.SampleWordsDecode
  decide

end
